-- ==== Sys2Proof/Word.lean ====
section
/-! DEFINITION. The word types of the S8 core (spec/00_scope.md R7, R8: widths 8, 12, 16, 32 and 4 bits). -/

namespace Sys2Proof

/-- A register value or a memory cell: 8 bits (R20, R34). -/
abbrev Byte := BitVec 8

/-- An address or a program counter value: 12 bits (R23, R34). -/
abbrev Addr := BitVec 12

/-- The instruction word `w`: 16 bits (R7, R70). -/
abbrev Word16 := BitVec 16

/-- A nibble, "a 4-bit half-byte": an operation class or a sub-code (R7, R71). -/
abbrev Nibble := BitVec 4

/-- A register index: a 4-bit field, so that every index names a register (R20). -/
abbrev RegIdx := BitVec 4

/-- `tick` and `maxTicks`: `TICK_WIDTH` = 32 bits (R6, R28). DESIGN CHOICE of the spec, D17: log entry 17. -/
abbrev Tick := BitVec 32

/-- Program text and rendered text. -/
abbrev Text := List Char

end Sys2Proof
end

