-- ==== Sys2Proof/Config.lean ====
section
/-! DEFINITION. The implementation parameters of spec/00_scope.md R6, each with the document's value, and the two
values the spec leaves open. The literals are unaudited (93_implementation_defined.md U12): log entry 32. -/

namespace Sys2Proof

/-- How a shift count of 8 or more is treated (93_implementation_defined.md U1). -/
inductive ShiftCountMode where
  /-- the whole 8-bit register is the count -/
  | full
  /-- the count is taken modulo 32 -/
  | mask5
  deriving DecidableEq, Repr

namespace Config

/-- `MEM_SIZE` (R6): the size of `memory` in bytes. -/
abbrev memSize : Nat := 4096

/-- `ADDR_WIDTH` (R6): the width of an address and of `pc`. -/
abbrev addrWidth : Nat := 12

/-- `REG_COUNT` (R6). -/
abbrev regCount : Nat := 16

/-- `REG_WIDTH` (R6). -/
abbrev regWidth : Nat := 8

/-- `INSTR_BYTES` (R6): the length of every instruction. -/
abbrev instrBytes : Nat := 2

/-- `CALL_DEPTH` (R6): the largest number of entries of `callStack`. -/
abbrev callDepth : Nat := 100

/-- `OUT_MAX` (R6): the largest length of `outputStream`. -/
abbrev outMax : Nat := 1000

/-- `MAX_TICKS_DEFAULT` (R6): `maxTicks` before any `setMaxTicks`. -/
abbrev maxTicksDefault : Nat := 50000

/-- `MAGIC` (R6): the 7-byte image marker, ASCII `.SLEDE8`. -/
abbrev magic : List Byte := [0x2E#8, 0x53#8, 0x4C#8, 0x45#8, 0x44#8, 0x45#8, 0x38#8]

/-- `IMAGE_MAX` (R6): the largest image `load` accepts, marker included. -/
abbrev imageMax : Nat := 4096

/-- `TICK_WIDTH` (R6). DESIGN CHOICE of the spec, D17: log entry 17. -/
abbrev tickWidth : Nat := 32

/-- `SHIFT_COUNT_MODE` (R6), default `full`. DESIGN CHOICE of the spec, D5: log entry 5. -/
abbrev shiftCountMode : ShiftCountMode := .full

/-- What a byte of memory that nothing has written reads as: 0x00 (R50, R58). -/
abbrev unlistedByte : Byte := 0x00#8

/-- `DISASM_DEFAULT_LEN` (R6, R224): the "small fixed window" of the disassembler, left OPEN by the spec (D22). A free
value: log entry 22. -/
opaque disasmDefaultLen : Nat

/-- The text of a "hex/ASCII dump" of addressed bytes, whose layout the spec does not give (R252, N24). A free
value: log entry 34. -/
opaque dumpText : List (Nat × Byte) → Text

end Config
end Sys2Proof
end

