-- ==== Sys2Proof/Syntax.lean ====
section
/-! DEFINITION. The syntax of the S8 core: the 26 instructions of spec/opcode_table.json (30_encoding.md R78), the
record of decoded fields (R71), the reasons a word is illegal (R83), and the surface form of one instruction (R90). -/

namespace Sys2Proof

/-- One instruction, one constructor per row of the opcode table (30_encoding.md R78). Every operand has the width of
its encoded field, so don't-care bits have no place here and no operand can be out of range. -/
inductive Instr where
  | stopp
  | settImm (d : RegIdx) (imm : Byte)
  | settReg (d r : RegIdx)
  | finn (a : Addr)
  | last (d : RegIdx)
  | lagr (r : RegIdx)
  | og (d r : RegIdx)
  | eller (d r : RegIdx)
  | xeller (d r : RegIdx)
  | vskift (d r : RegIdx)
  | hskift (d r : RegIdx)
  | pluss (d r : RegIdx)
  | minus (d r : RegIdx)
  | les (d : RegIdx)
  | skriv (r : RegIdx)
  | lik (x y : RegIdx)
  | ulik (x y : RegIdx)
  | me (x y : RegIdx)
  | mel (x y : RegIdx)
  | se (x y : RegIdx)
  | sel (x y : RegIdx)
  | hopp (a : Addr)
  | bhopp (a : Addr)
  | tur (a : Addr)
  | retur
  | nope
  deriving DecidableEq, Repr

/-- The six fields of an instruction word, all of them always computed (30_encoding.md R71; names of R9). -/
structure Fields where
  operationClass : Nibble
  operation : Nibble
  address : Addr
  value : Byte
  argument1 : RegIdx
  argument2 : RegIdx
  deriving DecidableEq, Repr

/-- Why a word is no instruction (30_encoding.md R80, R83). -/
inductive IllegalReason where
  /-- class 0xD, 0xE or 0xF -/
  | unknownClass (c : Nibble)
  /-- class 0x4, 0x5, 0x6 or 0x7 with a sub-code outside its list -/
  | unknownSubcode (c sub : Nibble)
  deriving DecidableEq, Repr

/-- Why a sequence of bytes does not begin with an instruction. -/
inductive DecodeError where
  /-- fewer than the two bytes of an instruction (R70) -/
  | truncated
  /-- two bytes whose word is illegal (R80) -/
  | illegal (reason : IllegalReason)
  deriving DecidableEq, Repr

/-- The 25 mnemonics of the 26 instructions (30_encoding.md R78): SETT has two encodings. Twelve spellings are PRESUMED,
from general knowledge (93_implementation_defined.md G1): log entry 8. -/
inductive Mnemonic where
  | stopp | sett | finn | last | lagr
  | og | eller | xeller | vskift | hskift | pluss | minus
  | les | skriv
  | lik | ulik | me | mel | se | sel
  | hopp | bhopp | tur | retur | nope
  deriving DecidableEq, Repr

/-- One row of the opcode map: the instruction is selected when `(w & mask) = selects`; `dontCare` marks the bits no rule
reads (30_encoding.md R78, R81). -/
structure OpcodeRow where
  mnemonic : Mnemonic
  mask : Word16
  selects : Word16
  dontCare : Word16
  deriving DecidableEq, Repr

/-- An operand as it is written (30_encoding.md R87): `r<n>`, a number, or a label. -/
inductive Operand where
  | reg (n : Nat)
  | num (n : Nat)
  | label (name : Text)
  deriving DecidableEq, Repr

/-- One written instruction: a mnemonic and its operands (30_encoding.md R86, R90). -/
structure SourceInstr where
  mnemonic : Mnemonic
  operands : List Operand
  deriving DecidableEq, Repr

end Sys2Proof
end

