-- ==== Sys2Proof/WellFormed.lean ====
section
/-! DEFINITION. What a well-formed instruction is. An `Instr` holds each operand at the width of its field, so every
`Instr` is well-formed; the checks stand on the written form, whose operands are numbers (30_encoding.md R84 "addr
0..4095", "imm 0..255", R87, R90), and its operand list is the one its mnemonic asks for. -/

namespace Sys2Proof

/-- A register operand is `r0` to `r15` (R87). -/
abbrev Operand.isReg : Operand → Bool
  | .reg n => decide (n < Config.regCount)
  | .num _ => false
  | .label _ => false

/-- An immediate is a number 0 to 255 (R84, R90). -/
abbrev Operand.isImm : Operand → Bool
  | .num n => decide (n < 2 ^ Config.regWidth)
  | .reg _ => false
  | .label _ => false

/-- An address, its label resolved, is a number 0 to 4095 (R84, R90). -/
abbrev Operand.isAddr : Operand → Bool
  | .num n => decide (n < 2 ^ Config.addrWidth)
  | .reg _ => false
  | .label _ => false

/-- The operand shapes of the assembly forms of R90. -/
inductive OperandShape where
  | none | sett | addr | oneReg | twoRegs
  deriving DecidableEq, Repr

/-- Which shape each mnemonic takes (R90). -/
def Mnemonic.shape : Mnemonic → OperandShape
  | .stopp | .retur | .nope => .none
  | .sett => .sett
  | .finn | .hopp | .bhopp | .tur => .addr
  | .last | .lagr | .les | .skriv => .oneReg
  | .og | .eller | .xeller | .vskift | .hskift | .pluss | .minus => .twoRegs
  | .lik | .ulik | .me | .mel | .se | .sel => .twoRegs

/-- A written instruction is well-formed when its operands are as many and as large as R90 asks of its mnemonic; a
wrong count or an operand out of range is an error of the source text (R92). -/
def SourceInstr.wf (i : SourceInstr) : Bool :=
  match i.mnemonic.shape, i.operands with
  | .none, [] => true
  | .sett, [d, v] => d.isReg && (v.isImm || v.isReg)
  | .addr, [a] => a.isAddr
  | .oneReg, [r] => r.isReg
  | .twoRegs, [d, r] => d.isReg && r.isReg
  | _, _ => false

end Sys2Proof
end

