-- ==== Sys2Proof/Decode.lean ====
section
/-! DEFINITION. The instruction codec (spec/30_encoding.md): fields of a word (R71), the classifier (R83), the byte
decoder (R51, R70), the opcode map as rows (R78), the encoder (R84), and the written form (R90). -/

namespace Sys2Proof

/-! ## Decoding -/

/-- `w = opcode | (param << 8)`: the byte at the lower address is the low half (R51, R71). -/
def wordOfBytes (opcode param : Byte) : Word16 := param ++ opcode

/-- The six fields of a word (R71). -/
def decodeFields (w : Word16) : Fields where
  operationClass := w.extractLsb' 0 4
  operation := w.extractLsb' 4 4
  address := w.extractLsb' 4 12
  value := w.extractLsb' 8 8
  argument1 := w.extractLsb' 8 4
  argument2 := w.extractLsb' 12 4

/-- Class 0x4 selects by sub-code 0, 1 (R77, R153). -/
def classifyMemory (f : Fields) : Except IllegalReason Instr :=
  match f.operation.toNat with
  | 0 => .ok (.last f.argument1)
  | 1 => .ok (.lagr f.argument1)
  | _ => .error (.unknownSubcode f.operationClass f.operation)

/-- Class 0x5 selects by sub-code 0 to 6 (R77, R79, R168). The numbering is the spec's decision D8: log entry 8. -/
def classifyAlu (f : Fields) : Except IllegalReason Instr :=
  match f.operation.toNat with
  | 0 => .ok (.og f.argument1 f.argument2)
  | 1 => .ok (.eller f.argument1 f.argument2)
  | 2 => .ok (.xeller f.argument1 f.argument2)
  | 3 => .ok (.vskift f.argument1 f.argument2)
  | 4 => .ok (.hskift f.argument1 f.argument2)
  | 5 => .ok (.pluss f.argument1 f.argument2)
  | 6 => .ok (.minus f.argument1 f.argument2)
  | _ => .error (.unknownSubcode f.operationClass f.operation)

/-- Class 0x6 selects by sub-code 0, 1 (R77, R182). -/
def classifyInOut (f : Fields) : Except IllegalReason Instr :=
  match f.operation.toNat with
  | 0 => .ok (.les f.argument1)
  | 1 => .ok (.skriv f.argument1)
  | _ => .error (.unknownSubcode f.operationClass f.operation)

/-- Class 0x7 selects by sub-code 0 to 5 (R77, R79, R197). The numbering is the spec's decision D8: log entry 8. -/
def classifyCompare (f : Fields) : Except IllegalReason Instr :=
  match f.operation.toNat with
  | 0 => .ok (.lik f.argument1 f.argument2)
  | 1 => .ok (.ulik f.argument1 f.argument2)
  | 2 => .ok (.me f.argument1 f.argument2)
  | 3 => .ok (.mel f.argument1 f.argument2)
  | 4 => .ok (.se f.argument1 f.argument2)
  | 5 => .ok (.sel f.argument1 f.argument2)
  | _ => .error (.unknownSubcode f.operationClass f.operation)

/-- The verdict on a word (R77, R83): an instruction with its operands, or the reason it is illegal. Fields the class
does not use are not looked at (R81; D10: log entry 10). -/
def classify (w : Word16) : Except IllegalReason Instr :=
  let f := decodeFields w
  match f.operationClass.toNat with
  | 0x0 => .ok .stopp
  | 0x1 => .ok (.settImm f.operation f.value)
  | 0x2 => .ok (.settReg f.operation f.argument1)
  | 0x3 => .ok (.finn f.address)
  | 0x4 => classifyMemory f
  | 0x5 => classifyAlu f
  | 0x6 => classifyInOut f
  | 0x7 => classifyCompare f
  | 0x8 => .ok (.hopp f.address)
  | 0x9 => .ok (.bhopp f.address)
  | 0xA => .ok (.tur f.address)
  | 0xB => .ok .retur
  | 0xC => .ok .nope
  | _ => .error (.unknownClass f.operationClass)

/-- The instruction at the head of a byte sequence, and the bytes after it; every instruction is two bytes (R70). -/
def decodeBytes : List Byte → Except DecodeError (Instr × List Byte)
  | opcode :: param :: rest =>
    match classify (wordOfBytes opcode param) with
    | .ok i => .ok (i, rest)
    | .error r => .error (.illegal r)
  | _ => .error .truncated

/-- The instruction the decoder reads from an instruction whose bits, numbered as the opcode table numbers them, are the
low `nbits` bits of `w`; the first byte of an instruction is bits 7..0 of its word (R51). -/
def decodeTableWord (nbits w : Nat) : Option Instr :=
  let bits := BitVec.ofNat 16 (w % 2 ^ nbits)
  match decodeBytes [bits.extractLsb' 0 8, bits.extractLsb' 8 8] with
  | .ok (i, _) => some i
  | .error _ => none

/-! ## Encoding -/

/-- Format N (R73): no operand. -/
def encodeNone (c : Nibble) : Word16 := 0#12 ++ c

/-- Format A (R73): a 12-bit address. -/
def encodeAddr (c : Nibble) (a : Addr) : Word16 := a ++ c

/-- Format R (R73): a sub-code and one register. -/
def encodeOne (c sub : Nibble) (r : RegIdx) : Word16 := 0#4 ++ r ++ sub ++ c

/-- Format RR (R73): a sub-code and two registers, the first in `argument1`. -/
def encodeTwo (c sub : Nibble) (d r : RegIdx) : Word16 := r ++ d ++ sub ++ c

/-- The canonical word of an instruction (R84): don't-care bits 0. -/
def encode : Instr → Word16
  | .stopp => encodeNone 0x0#4
  | .settImm d imm => imm ++ d ++ 0x1#4
  | .settReg d r => 0#4 ++ r ++ d ++ 0x2#4
  | .finn a => encodeAddr 0x3#4 a
  | .last d => encodeOne 0x4#4 0#4 d
  | .lagr r => encodeOne 0x4#4 1#4 r
  | .og d r => encodeTwo 0x5#4 0#4 d r
  | .eller d r => encodeTwo 0x5#4 1#4 d r
  | .xeller d r => encodeTwo 0x5#4 2#4 d r
  | .vskift d r => encodeTwo 0x5#4 3#4 d r
  | .hskift d r => encodeTwo 0x5#4 4#4 d r
  | .pluss d r => encodeTwo 0x5#4 5#4 d r
  | .minus d r => encodeTwo 0x5#4 6#4 d r
  | .les d => encodeOne 0x6#4 0#4 d
  | .skriv r => encodeOne 0x6#4 1#4 r
  | .lik x y => encodeTwo 0x7#4 0#4 x y
  | .ulik x y => encodeTwo 0x7#4 1#4 x y
  | .me x y => encodeTwo 0x7#4 2#4 x y
  | .mel x y => encodeTwo 0x7#4 3#4 x y
  | .se x y => encodeTwo 0x7#4 4#4 x y
  | .sel x y => encodeTwo 0x7#4 5#4 x y
  | .hopp a => encodeAddr 0x8#4 a
  | .bhopp a => encodeAddr 0x9#4 a
  | .tur a => encodeAddr 0xA#4 a
  | .retur => encodeNone 0xB#4
  | .nope => encodeNone 0xC#4

/-- The bytes stored for a word: `opcode` at the lower address, then `param` (R84). -/
def bytesOfWord (w : Word16) : List Byte := [w.extractLsb' 0 8, w.extractLsb' 8 8]

/-- The two bytes of an instruction, in memory order (R84). -/
def encodeBytes (i : Instr) : List Byte := bytesOfWord (encode i)

/-! ## The opcode map as rows -/

/-- The row of an instruction selected by its class alone. -/
def classRow (m : Mnemonic) (c dontCare : Word16) : OpcodeRow := ⟨m, 0x000F#16, c, dontCare⟩

/-- The row of an instruction selected by class and sub-code. -/
def subRow (m : Mnemonic) (s dontCare : Word16) : OpcodeRow := ⟨m, 0x00FF#16, s, dontCare⟩

/-- The opcode map (R78), with the don't-care bits of R81; SETT has one row per encoding. -/
def opcodeTable : List OpcodeRow :=
  [ classRow .stopp 0x0000#16 0xFFF0#16,
    classRow .sett 0x0001#16 0x0000#16,
    classRow .sett 0x0002#16 0xF000#16,
    classRow .finn 0x0003#16 0x0000#16,
    subRow .last 0x0004#16 0xF000#16,
    subRow .lagr 0x0014#16 0xF000#16 ] ++
  [ subRow .og 0x0005#16 0x0000#16,
    subRow .eller 0x0015#16 0x0000#16,
    subRow .xeller 0x0025#16 0x0000#16,
    subRow .vskift 0x0035#16 0x0000#16,
    subRow .hskift 0x0045#16 0x0000#16,
    subRow .pluss 0x0055#16 0x0000#16,
    subRow .minus 0x0065#16 0x0000#16 ] ++
  [ subRow .les 0x0006#16 0xF000#16,
    subRow .skriv 0x0016#16 0xF000#16 ] ++
  [ subRow .lik 0x0007#16 0x0000#16,
    subRow .ulik 0x0017#16 0x0000#16,
    subRow .me 0x0027#16 0x0000#16,
    subRow .mel 0x0037#16 0x0000#16,
    subRow .se 0x0047#16 0x0000#16,
    subRow .sel 0x0057#16 0x0000#16 ] ++
  [ classRow .hopp 0x0008#16 0x0000#16,
    classRow .bhopp 0x0009#16 0x0000#16,
    classRow .tur 0x000A#16 0x0000#16,
    classRow .retur 0x000B#16 0xFFF0#16,
    classRow .nope 0x000C#16 0xFFF0#16 ]

/-- The row of the table that selects a word (R78). -/
def rowOfWord (w : Word16) : Option OpcodeRow :=
  opcodeTable.find? fun row => w &&& row.mask == row.selects

/-! ## The written form -/

/-- The written form of an instruction (R90): the first operand is the destination or left operand (D9: log entry 9). -/
def Instr.toSource : Instr → SourceInstr
  | .stopp => ⟨.stopp, []⟩
  | .settImm d imm => ⟨.sett, [.reg d.toNat, .num imm.toNat]⟩
  | .settReg d r => ⟨.sett, [.reg d.toNat, .reg r.toNat]⟩
  | .finn a => ⟨.finn, [.num a.toNat]⟩
  | .last d => ⟨.last, [.reg d.toNat]⟩
  | .lagr r => ⟨.lagr, [.reg r.toNat]⟩
  | .og d r => ⟨.og, [.reg d.toNat, .reg r.toNat]⟩
  | .eller d r => ⟨.eller, [.reg d.toNat, .reg r.toNat]⟩
  | .xeller d r => ⟨.xeller, [.reg d.toNat, .reg r.toNat]⟩
  | .vskift d r => ⟨.vskift, [.reg d.toNat, .reg r.toNat]⟩
  | .hskift d r => ⟨.hskift, [.reg d.toNat, .reg r.toNat]⟩
  | .pluss d r => ⟨.pluss, [.reg d.toNat, .reg r.toNat]⟩
  | .minus d r => ⟨.minus, [.reg d.toNat, .reg r.toNat]⟩
  | .les d => ⟨.les, [.reg d.toNat]⟩
  | .skriv r => ⟨.skriv, [.reg r.toNat]⟩
  | .lik x y => ⟨.lik, [.reg x.toNat, .reg y.toNat]⟩
  | .ulik x y => ⟨.ulik, [.reg x.toNat, .reg y.toNat]⟩
  | .me x y => ⟨.me, [.reg x.toNat, .reg y.toNat]⟩
  | .mel x y => ⟨.mel, [.reg x.toNat, .reg y.toNat]⟩
  | .se x y => ⟨.se, [.reg x.toNat, .reg y.toNat]⟩
  | .sel x y => ⟨.sel, [.reg x.toNat, .reg y.toNat]⟩
  | .hopp a => ⟨.hopp, [.num a.toNat]⟩
  | .bhopp a => ⟨.bhopp, [.num a.toNat]⟩
  | .tur a => ⟨.tur, [.num a.toNat]⟩
  | .retur => ⟨.retur, []⟩
  | .nope => ⟨.nope, []⟩

/-- The instruction a well-formed written instruction stands for (R84, R90): the inverse of `Instr.toSource`. `SETT`
takes its class from its second operand (R87). -/
def SourceInstr.toInstr? (i : SourceInstr) : Option Instr :=
  if i.wf then
    match i.mnemonic, i.operands with
    | .stopp, [] => some .stopp
    | .sett, [.reg d, .num v] => some (.settImm (BitVec.ofNat 4 d) (BitVec.ofNat 8 v))
    | .sett, [.reg d, .reg r] => some (.settReg (BitVec.ofNat 4 d) (BitVec.ofNat 4 r))
    | .finn, [.num a] => some (.finn (BitVec.ofNat 12 a))
    | .last, [.reg d] => some (.last (BitVec.ofNat 4 d))
    | .lagr, [.reg r] => some (.lagr (BitVec.ofNat 4 r))
    | .og, [.reg d, .reg r] => some (.og (BitVec.ofNat 4 d) (BitVec.ofNat 4 r))
    | .eller, [.reg d, .reg r] => some (.eller (BitVec.ofNat 4 d) (BitVec.ofNat 4 r))
    | .xeller, [.reg d, .reg r] => some (.xeller (BitVec.ofNat 4 d) (BitVec.ofNat 4 r))
    | .vskift, [.reg d, .reg r] => some (.vskift (BitVec.ofNat 4 d) (BitVec.ofNat 4 r))
    | .hskift, [.reg d, .reg r] => some (.hskift (BitVec.ofNat 4 d) (BitVec.ofNat 4 r))
    | .pluss, [.reg d, .reg r] => some (.pluss (BitVec.ofNat 4 d) (BitVec.ofNat 4 r))
    | .minus, [.reg d, .reg r] => some (.minus (BitVec.ofNat 4 d) (BitVec.ofNat 4 r))
    | .les, [.reg d] => some (.les (BitVec.ofNat 4 d))
    | .skriv, [.reg r] => some (.skriv (BitVec.ofNat 4 r))
    | .lik, [.reg x, .reg y] => some (.lik (BitVec.ofNat 4 x) (BitVec.ofNat 4 y))
    | .ulik, [.reg x, .reg y] => some (.ulik (BitVec.ofNat 4 x) (BitVec.ofNat 4 y))
    | .me, [.reg x, .reg y] => some (.me (BitVec.ofNat 4 x) (BitVec.ofNat 4 y))
    | .mel, [.reg x, .reg y] => some (.mel (BitVec.ofNat 4 x) (BitVec.ofNat 4 y))
    | .se, [.reg x, .reg y] => some (.se (BitVec.ofNat 4 x) (BitVec.ofNat 4 y))
    | .sel, [.reg x, .reg y] => some (.sel (BitVec.ofNat 4 x) (BitVec.ofNat 4 y))
    | .hopp, [.num a] => some (.hopp (BitVec.ofNat 12 a))
    | .bhopp, [.num a] => some (.bhopp (BitVec.ofNat 12 a))
    | .tur, [.num a] => some (.tur (BitVec.ofNat 12 a))
    | .retur, [] => some .retur
    | .nope, [] => some .nope
    | _, _ => none
  else none

end Sys2Proof
end

