-- ==== Sys2Proof/Machine/State.lean ====
section
/-! DEFINITION. The state of the S8 core (spec/10_state.md), the reasons an operation stops, and the state at power-on
(R38, R300). STATE IS PLAIN DATA. -/

namespace Sys2Proof.Machine

/-- `memory` (R34, R50) as a list of (address, byte) cells: addresses strictly rising, and no cell holding the byte that
an unlisted address reads as. -/
abbrev Memory := List Host.Cell

/-- The canonical form of a memory, all of its addresses inside the 4096 bytes that exist (R50). -/
abbrev Memory.wf (m : Memory) : Prop :=
  m.Pairwise (fun x y => x.1 < y.1) ∧ ∀ c ∈ m, c.2 ≠ Config.unlistedByte ∧ c.1 < Config.memSize

/-- The four faults a cycle can raise (R31, R270). Each is TAKEN: the state after it is described (R272), so a step that
raises one is a next state whose `status` holds it. Safe: the spec states when each arises. -/
inductive FaultKind where
  /-- raised by an illegal word, by SKRIV on a full output, by RETUR on an empty call stack -/
  | segmentationFault
  /-- raised by TUR when `callStack` holds 100 entries -/
  | recursionLimitExceeded
  /-- raised by LES when the input cursor is at the end of `stdin` -/
  | readAfterEndOfInput
  /-- raised by step 1 of a cycle when `tick + 1 > maxTicks`; carries the exceeded budget (R271; D21: log entry 21) -/
  | resourcesExhausted (budget : Tick)
  deriving DecidableEq, Repr

/-- Run status (R31; D29: log entry 28). -/
inductive Status where
  | running
  | halted
  /-- a fault, and the address of the instruction whose cycle raised it -/
  | faulted (kind : FaultKind) (faultAddr : Addr)
  deriving DecidableEq, Repr

/-- What a `run` or `step` command returns (R246). `continuing` and `breakpointHit` are results, not state (R31). -/
inductive RunOutcome where
  | continuing
  | breakpointHit
  | halted
  | faulted (kind : FaultKind) (faultAddr : Addr)
  deriving DecidableEq, Repr

/-- The two load-time faults (R270, R276): answered by the host's command `load`, which then changes nothing. No
instruction and no step answers one. Safe: the spec states when each arises. -/
inductive Fault where
  /-- raised by `load`: the image is longer than 4096 bytes; carries the image length (R271) -/
  | fileSizeTooBig (imageLength : Nat)
  /-- raised by `load` with validation: the image does not begin with the marker; carries the image length (R271) -/
  | unsupportedExecutable (imageLength : Nat)
  deriving DecidableEq, Repr

/-- Why an operation is refused. -/
inductive Refusal where
  /-- raised by an arm of `exec` whose instruction has no meaning yet; safe; no arm raises it now -/
  | notModelled (mnemonic : String)
  /-- raised by the host's command `SetPC` outside the loaded image (R255; D23: log entry 23); safe: the spec states it -/
  | setPcOutsideImage (target : Addr)
  deriving DecidableEq, Repr

/-- All the state the spec gives the machine (10_state.md; listed in INVENTORY.md). -/
structure State where
  /-- `r0` to `r15` (R20) -/
  regs : Vector Byte 16
  /-- the program counter (R23) -/
  pc : Addr
  /-- the one flag (R24) -/
  flag : Bool
  /-- return addresses, the last one on top: `callStack[depth-1]` is the top (R25) -/
  callStack : List Addr
  /-- the step counter (R28) -/
  tick : Tick
  /-- its ceiling (R28) -/
  maxTicks : Tick
  /-- the input buffer (R29) -/
  stdin : List Byte
  /-- the cursor into `stdin` (R29) -/
  inputPtr : Nat
  /-- the output buffer, oldest byte first (R30) -/
  outputStream : List Byte
  /-- run status (R31) -/
  status : Status
  /-- `bp`: 4096 bits, bit `a` the breakpoint of address `a` (R32) -/
  breakpoints : BitVec 4096
  /-- code and data (R34) -/
  memory : Memory
  /-- how many bytes the last `load` copied (R33) -/
  memoryUsed : Nat
  deriving DecidableEq, Repr

/-- The machine at power-on (R38, R300). DESIGN CHOICE of the spec, D16: log entry 16. -/
def State.reset : State where
  regs := Vector.replicate 16 0x00#8
  pc := 0x000#12
  flag := false
  callStack := []
  tick := 0#32
  maxTicks := BitVec.ofNat 32 Config.maxTicksDefault
  stdin := []
  inputPtr := 0
  outputStream := []
  status := .running
  breakpoints := 0#4096
  memory := []
  memoryUsed := 0

end Sys2Proof.Machine
end

