-- ==== Sys2Proof/Machine/Ops.lean ====
section
/-! DEFINITION. The operations over memory, registers, call stack, streams and status that every instruction and every
command is built from (spec/00_scope.md R8, 10_state.md, 20_memory.md), TAKING A FAULT as one operation (60_exceptions.md
R272), and beside it the only way on from one, `resetRegisters` (R277, R302). -/

namespace Sys2Proof.Machine

/-! ## Memory as data -/

/-- The byte at an address; an unlisted address reads as 0x00 (R50, R52, R58). -/
def Memory.read : Memory → Nat → Byte
  | [], _ => Config.unlistedByte
  | (a, b) :: m, k => if k = a then b else Memory.read m k

/-- The memory without any cell at an address. -/
def Memory.erase (m : Memory) (k : Nat) : Memory := m.filter fun c => c.1 != k

/-- A cell put where the rising order of addresses has it. -/
def Memory.insert : Memory → Nat → Byte → Memory
  | [], k, v => [(k, v)]
  | c :: m, k, v => if k < c.1 then (k, v) :: c :: m else c :: Memory.insert m k v

/-- Set the byte at an address, keeping the canonical form: writing what an unlisted address reads as removes the cell
(R52). -/
def Memory.write (m : Memory) (k : Nat) (v : Byte) : Memory :=
  if v = Config.unlistedByte then Memory.erase m k else Memory.insert (Memory.erase m k) k v

/-- A memory that holds the given bytes from address `k` on and 0x00 elsewhere (R301). -/
def Memory.ofBytesFrom (k : Nat) : List Byte → Memory
  | [] => []
  | b :: bs =>
    if b = Config.unlistedByte then Memory.ofBytesFrom (k + 1) bs
    else (k, b) :: Memory.ofBytesFrom (k + 1) bs

/-- A memory that holds the given bytes from offset 0 and 0x00 elsewhere (R301). -/
def Memory.ofBytes (bs : List Byte) : Memory := Memory.ofBytesFrom 0 bs

/-! ## Options of the host's operations -/

/-- The options of `disassemble`, `memoryDump` and `SetPC` (R224, R252, R255): whether the operation may leave the loaded
image, "default false" (48_disassembler.md R226). -/
structure RangeOptions where
  allowOutsideLoadedMemory : Bool := false
  deriving DecidableEq, Repr

namespace State

/-! ## Registers, program counter, flag -/

/-- `x[i]` (R8, R20). -/
def readReg (s : State) (i : RegIdx) : Byte := s.regs[i.toNat]'i.isLt

/-- `x[i] <- v` (R8, R20). -/
def writeReg (s : State) (i : RegIdx) (v : Byte) : State :=
  { s with regs := s.regs.set i.toNat v i.isLt }

/-- `pc <- t` (R8, R23). -/
def setPc (s : State) (t : Addr) : State := { s with pc := t }

/-- The address after this instruction, `(pc + 2) mod 4096` (R23; the wrap is D3: log entry 3). -/
def nextPc (s : State) : Addr := s.pc + BitVec.ofNat 12 Config.instrBytes

/-- Step 4's advance, `pc <- (pc + 2) mod 4096` (R114). -/
def advance (s : State) : State := s.setPc s.nextPc

/-- `flag <- b` (R8, R24). -/
def setFlag (s : State) (b : Bool) : State := { s with flag := b }

/-! ## Memory -/

/-- `MemRead(addr, 1)`; never faults (R52). -/
def readByte (s : State) (a : Addr) : Byte := s.memory.read a.toNat

/-- `MemWrite(addr, 1, v)`; never faults (R52), and leaves `memoryUsed` alone (R33; D24: log entry 24). -/
def writeByte (s : State) (a : Addr) (v : Byte) : State :=
  { s with memory := s.memory.write a.toNat v }

/-! ## The call stack -/

/-- `depth` (R25). -/
def depth (s : State) : Nat := s.callStack.length

/-- `push(v)`: fails, changing nothing, when 100 entries are held (R27). -/
def push (s : State) (v : Addr) : Option State :=
  if s.depth < Config.callDepth then some { s with callStack := s.callStack ++ [v] } else none

/-- `pop()`: fails, changing nothing, when the stack is empty; otherwise the old top and the state without it (R27). -/
def pop (s : State) : Option (Addr × State) :=
  match s.callStack.getLast? with
  | some v => some (v, { s with callStack := s.callStack.dropLast })
  | none => none

/-! ## The two byte streams -/

/-- The next input byte, and the state with the cursor past it; none at the end of the buffer (R29, R180). -/
def takeInput (s : State) : Option (Byte × State) :=
  match s.stdin[s.inputPtr]? with
  | some b => some (b, { s with inputPtr := s.inputPtr + 1 })
  | none => none

/-- Append a byte to the output; fails when the buffer would exceed 1000 bytes (R30, R181; D20: log entry 20). -/
def putOutput (s : State) (b : Byte) : Option State :=
  if s.outputStream.length + 1 > Config.outMax then none
  else some { s with outputStream := s.outputStream ++ [b] }

/-! ## Status: halting, taking a fault, and the way on -/

/-- `status <- Halted` (R113, R130). -/
def halt (s : State) : State := { s with status := .halted }

/-- TAKING A FAULT, `raise F(faultAddr)`: `status <- Faulted(F, faultAddr)` and nothing else; no register saves anything,
no mode changes, control goes nowhere (R272). -/
def raise (s : State) (kind : FaultKind) (faultAddr : Addr) : State :=
  { s with status := .faulted kind faultAddr }

/-- A fault of step 4, taken in the state before the advance: `pc` is left advanced and `faultAddr` is the address of the
instruction (R114, R117; D2: log entry 2). -/
def faultHere (s : State) (kind : FaultKind) : State := s.advance.raise kind s.pc

/-- What an illegal word does: `SegmentationFault` (R80, R132, R153, R168, R182, R197). -/
def illegalWord (s : State) : State := s.faultHere .segmentationFault

/-- `resetRegisters()`, beside `load` the only way on from a fault or a halt (R242, R277, R302). The call stack is emptied
by the spec's decision D13: log entry 13. -/
def resetRegisters (s : State) : State :=
  { s with
    regs := Vector.replicate 16 0x00#8, flag := false, pc := 0x000#12, tick := 0#32, status := .running,
    inputPtr := 0, outputStream := [], callStack := [] }

/-! ## The parts of a cycle (spec/40_cycle.md) -/

/-- Whether a cycle can start (R110; D11: log entry 11). -/
def isRunning (s : State) : Bool := decide (s.status = .running)

/-- `crashed`, the document's one boolean (R31). -/
def crashed (s : State) : Bool := !s.isRunning

/-- Step 1's test, `tick + 1 > maxTicks` (R111). -/
def budgetSpent (s : State) : Bool := decide (s.tick.toNat + 1 > s.maxTicks.toNat)

/-- Step 1's refusal: `ResourcesExhausted` at `pc`, nothing else changed (R110, R111). -/
def refuseCycle (s : State) : State := s.raise (.resourcesExhausted s.maxTicks) s.pc

/-- Step 1's count, `tick <- tick + 1` (R111; D1: log entry 1). -/
def countTick (s : State) : State := { s with tick := s.tick + 1#32 }

/-- Step 2's fetch: the bytes at `pc` and `(pc + 1) mod 4096` (R51, R112; the wrap is D3: log entry 3). -/
def fetchWord (s : State) : Word16 := wordOfBytes (s.readByte s.pc) (s.readByte (s.pc + 1#12))

/-- Whether a breakpoint is armed at an address, `bp[a]` (R32). -/
def breakpointAt (s : State) (a : Addr) : Bool := s.breakpoints.getLsbD a.toNat

end State
end Sys2Proof.Machine
end

