-- ==== Sys2Proof/Machine/Operands.lean ====
section
/-! DEFINITION. The operand forms of the S8 core (spec/30_encoding.md R74, R75, R76) and its one addressing mode, indirect
through the pointer pair (10_state.md R21, 43_pointer_memory.md). -/

namespace Sys2Proof.Machine

/-- `r0`, the low half of the pointer pair (R21). -/
def pointerLow : RegIdx := 0#4

/-- `r1`, the high half of the pointer pair (R21). -/
def pointerHigh : RegIdx := 1#4

/-- A register operand: the register its index names, directly (R76). -/
def State.regOperand (s : State) (r : RegIdx) : Byte := s.readReg r

/-- The immediate operand: unsigned, not extended, shifted or scaled (R74). -/
def immOperand (v : Byte) : Byte := v

/-- The address operand: absolute, used as it is (R75). -/
def addrOperand (a : Addr) : Addr := a

/-- The byte FINN puts in `r1`: bits 11:8 of the address under a zero high nibble (R150; C7: log entry 30). -/
def addrHigh (a : Addr) : Byte := (a.extractLsb' 8 4).setWidth 8

/-- The byte FINN puts in `r0`: bits 7:0 of the address (R150). -/
def addrLow (a : Addr) : Byte := a.extractLsb' 0 8

/-- The effective address `((x[1] << 8) | x[0]) & 0xFFF` of LAST and LAGR: `x[1][3:0] || x[0]` (R151, R152). -/
def State.pointer (s : State) : Addr :=
  (s.readReg pointerHigh).extractLsb' 0 4 ++ s.readReg pointerLow

/-- Step 4's advance followed by the write of a destination register: the shape of SETT, LAST and the ALU. -/
def State.finishWith (s : State) (d : RegIdx) (v : Byte) : State := s.advance.writeReg d v

end Sys2Proof.Machine
end

