-- ==== Sys2Proof/Machine/Flags.lean ====
section
/-! DEFINITION. The flag computations of the S8 core: the six relations of spec/46_compare.md, the only writers of the one
flag (10_state.md R24). Values are compared as unsigned (R196; D7: log entry 7). There is no carry, zero, sign or overflow
flag (R24, R160). -/

namespace Sys2Proof.Machine

/-- eq (R190). -/
def relEq (a b : Byte) : Bool := a == b

/-- ne (R191). -/
def relNe (a b : Byte) : Bool := a != b

/-- lt (R192). -/
def relLt (a b : Byte) : Bool := decide (a.toNat < b.toNat)

/-- le (R193). -/
def relLe (a b : Byte) : Bool := decide (a.toNat ≤ b.toNat)

/-- gt (R194). -/
def relGt (a b : Byte) : Bool := decide (a.toNat > b.toNat)

/-- ge (R195). -/
def relGe (a b : Byte) : Bool := decide (a.toNat ≥ b.toNat)

/-- A compare: `flag <- x[A] REL x[B]`, left operand first, after the advance; nothing else is written (R196). -/
def State.compare (s : State) (rel : Byte → Byte → Bool) (x y : RegIdx) : State :=
  s.advance.setFlag (rel (s.regOperand x) (s.regOperand y))

end Sys2Proof.Machine
end

