-- ==== Sys2Proof/Machine/Alu.lean ====
section
/-! DEFINITION. The seven ALU instructions (spec/44_alu.md): both operands are read before the write, the result is taken
modulo 256, the flag is not touched (R160, R169). -/

namespace Sys2Proof.Machine

/-- The count of a shift: the full 8-bit register, or its low 5 bits, as the configuration says (R164, U1; D5: log
entry 5). -/
def shiftCount (n : Byte) : Nat :=
  match Config.shiftCountMode with
  | .full => n.toNat
  | .mask5 => n.toNat % 32

/-- `(a << n)[7:0]`: zeros enter at the bottom, bits shifted out at the top are lost (R164). -/
def shiftLeft (a n : Byte) : Byte := a <<< shiftCount n

/-- `floor(a / 2^n)`: logical, zeros enter at the top (R165; D6: log entry 6). -/
def shiftRight (a n : Byte) : Byte := a >>> shiftCount n

/-- The shape of the seven: `a <- x[D]; b <- x[S]; x[D] <- f(a, b)` (R160). -/
def State.alu (s : State) (f : Byte → Byte → Byte) (d r : RegIdx) : State :=
  s.finishWith d (f (s.regOperand d) (s.regOperand r))

/-- OG rD, rS (R161): bitwise and. -/
def execOg (d r : RegIdx) (s : State) : Host.Outcome State Fault Refusal :=
  .next (s.alu (fun a b => a &&& b) d r)

/-- ELLER rD, rS (R162): bitwise or. -/
def execEller (d r : RegIdx) (s : State) : Host.Outcome State Fault Refusal :=
  .next (s.alu (fun a b => a ||| b) d r)

/-- XELLER rD, rS (R163): bitwise exclusive or. -/
def execXeller (d r : RegIdx) (s : State) : Host.Outcome State Fault Refusal :=
  .next (s.alu (fun a b => a ^^^ b) d r)

/-- VSKIFT rD, rS (R164): shift left by a register count. -/
def execVskift (d r : RegIdx) (s : State) : Host.Outcome State Fault Refusal :=
  .next (s.alu shiftLeft d r)

/-- HSKIFT rD, rS (R165): shift right by a register count. -/
def execHskift (d r : RegIdx) (s : State) : Host.Outcome State Fault Refusal :=
  .next (s.alu shiftRight d r)

/-- PLUSS rD, rS (R166): add modulo 256. -/
def execPluss (d r : RegIdx) (s : State) : Host.Outcome State Fault Refusal :=
  .next (s.alu (fun a b => a + b) d r)

/-- MINUS rD, rS (R167): destination minus source, modulo 256. -/
def execMinus (d r : RegIdx) (s : State) : Host.Outcome State Fault Refusal :=
  .next (s.alu (fun a b => a - b) d r)

end Sys2Proof.Machine
end

