-- ==== Sys2Proof/Machine/Compare.lean ====
section
/-! DEFINITION. The six compares (spec/46_compare.md). -/

namespace Sys2Proof.Machine

/-- LIK rA, rB (R190): equal. -/
def execLik (x y : RegIdx) (s : State) : Host.Outcome State Fault Refusal := .next (s.compare relEq x y)

/-- ULIK rA, rB (R191): not equal. -/
def execUlik (x y : RegIdx) (s : State) : Host.Outcome State Fault Refusal := .next (s.compare relNe x y)

/-- ME rA, rB (R192): less than, unsigned. -/
def execMe (x y : RegIdx) (s : State) : Host.Outcome State Fault Refusal := .next (s.compare relLt x y)

/-- MEL rA, rB (R193): less or equal, unsigned. -/
def execMel (x y : RegIdx) (s : State) : Host.Outcome State Fault Refusal := .next (s.compare relLe x y)

/-- SE rA, rB (R194): greater than, unsigned. -/
def execSe (x y : RegIdx) (s : State) : Host.Outcome State Fault Refusal := .next (s.compare relGt x y)

/-- SEL rA, rB (R195): greater or equal, unsigned. -/
def execSel (x y : RegIdx) (s : State) : Host.Outcome State Fault Refusal := .next (s.compare relGe x y)

end Sys2Proof.Machine
end

