-- ==== Sys2Proof/Machine/Control.lean ====
section
/-! DEFINITION. HOPP, BHOPP, TUR, RETUR (spec/47_control.md): absolute targets, no delay slot (R204). -/

namespace Sys2Proof.Machine

/-- HOPP addr (R200): `pc <- address`, over the advance. -/
def execHopp (a : Addr) (s : State) : Host.Outcome State Fault Refusal :=
  .next (s.advance.setPc (addrOperand a))

/-- BHOPP addr (R201): `if flag then pc <- address`; otherwise the advanced `pc` stands. -/
def execBhopp (a : Addr) (s : State) : Host.Outcome State Fault Refusal :=
  .next (if s.flag then s.advance.setPc (addrOperand a) else s.advance)

/-- TUR addr (R202): push the advanced `pc` and jump, or `RecursionLimitExceeded` with the stack unchanged. -/
def execTur (a : Addr) (s : State) : Host.Outcome State Fault Refusal :=
  match s.push s.nextPc with
  | some s' => .next (s'.setPc (addrOperand a))
  | none => .next (s.faultHere .recursionLimitExceeded)

/-- RETUR (R203): pop into `pc`, or `SegmentationFault` with `pc` reset to 0. -/
def execRetur (s : State) : Host.Outcome State Fault Refusal :=
  match s.pop with
  | some (ra, s') => .next (s'.setPc ra)
  | none => .next ((s.setPc 0x000#12).raise .segmentationFault s.pc)

end Sys2Proof.Machine
end

