-- ==== Sys2Proof/Machine/HaltNop.lean ====
section
/-! DEFINITION. STOPP and NOPE (spec/41_halt_nop.md). A meaning is steps 3 and 4 of the cycle (40_cycle.md R110) in a state
whose `pc` is still the instruction's own address: it makes the advance itself (log entry 33). -/

namespace Sys2Proof.Machine

/-- STOPP (R113, R130): `status <- Halted`; step 3, so `pc` is not advanced. -/
def execStopp (s : State) : Host.Outcome State Fault Refusal := .next s.halt

/-- NOPE (R131): "no state change beyond the pc advance". -/
def execNope (s : State) : Host.Outcome State Fault Refusal := .next s.advance

end Sys2Proof.Machine
end

