-- ==== Sys2Proof/Machine/InOut.lean ====
section
/-! DEFINITION. LES and SKRIV (spec/45_io.md). -/

namespace Sys2Proof.Machine

/-- LES rD (R180): the next input byte, or `ReadAfterEndOfInput` with `x[D]` and the cursor unchanged (D19: log
entry 19). -/
def execLes (d : RegIdx) (s : State) : Host.Outcome State Fault Refusal :=
  match s.takeInput with
  | some (b, s') => .next (s'.finishWith d b)
  | none => .next (s.faultHere .readAfterEndOfInput)

/-- SKRIV rS (R181): append to the output, or `SegmentationFault` when it would exceed 1000 bytes (D20: log entry 20). -/
def execSkriv (r : RegIdx) (s : State) : Host.Outcome State Fault Refusal :=
  match s.putOutput (s.regOperand r) with
  | some s' => .next s'.advance
  | none => .next (s.faultHere .segmentationFault)

end Sys2Proof.Machine
end

