-- ==== Sys2Proof/Machine/Pointer.lean ====
section
/-! DEFINITION. FINN, LAST, LAGR (spec/43_pointer_memory.md). -/

namespace Sys2Proof.Machine

/-- FINN addr (R150): the pointer pair takes the address. -/
def execFinn (a : Addr) (s : State) : Host.Outcome State Fault Refusal :=
  .next ((s.advance.writeReg pointerHigh (addrHigh (addrOperand a))).writeReg pointerLow (addrLow (addrOperand a)))

/-- LAST rD (R151): `x[D] <- MemRead(ea, 1)`, the effective address taken from the old pointer pair. -/
def execLast (d : RegIdx) (s : State) : Host.Outcome State Fault Refusal :=
  .next (s.finishWith d (s.readByte s.pointer))

/-- LAGR rS (R152): `MemWrite(ea, 1, x[S])`. -/
def execLagr (r : RegIdx) (s : State) : Host.Outcome State Fault Refusal :=
  .next (s.advance.writeByte s.pointer (s.regOperand r))

end Sys2Proof.Machine
end

