-- ==== Sys2Proof/Machine/Sett.lean ====
section
/-! DEFINITION. SETT, both encodings (spec/42_set.md). -/

namespace Sys2Proof.Machine

/-- SETT rD, imm (R140): `x[D] <- value`. -/
def execSettImm (d : RegIdx) (imm : Byte) (s : State) : Host.Outcome State Fault Refusal :=
  .next (s.finishWith d (immOperand imm))

/-- SETT rD, rS (R141): `x[D] <- x[S]`. -/
def execSettReg (d r : RegIdx) (s : State) : Host.Outcome State Fault Refusal :=
  .next (s.finishWith d (s.regOperand r))

end Sys2Proof.Machine
end

