-- ==== Sys2Proof/Machine/Dispatch.lean ====
section
/-! DEFINITION. Which meaning each instruction has: one arm per row of spec/opcode_table.json (40_cycle.md R114). -/

namespace Sys2Proof.Machine

def exec (i : Instr) (s : State) : Host.Outcome State Fault Refusal :=
  match i with
  | .stopp => Sys2Proof.Machine.execStopp s
  | .settImm d imm => Sys2Proof.Machine.execSettImm d imm s
  | .settReg d r => Sys2Proof.Machine.execSettReg d r s
  | .finn a => Sys2Proof.Machine.execFinn a s
  | .last d => Sys2Proof.Machine.execLast d s
  | .lagr r => Sys2Proof.Machine.execLagr r s
  | .og d r => Sys2Proof.Machine.execOg d r s
  | .eller d r => Sys2Proof.Machine.execEller d r s
  | .xeller d r => Sys2Proof.Machine.execXeller d r s
  | .vskift d r => Sys2Proof.Machine.execVskift d r s
  | .hskift d r => Sys2Proof.Machine.execHskift d r s
  | .pluss d r => Sys2Proof.Machine.execPluss d r s
  | .minus d r => Sys2Proof.Machine.execMinus d r s
  | .les d => Sys2Proof.Machine.execLes d s
  | .skriv r => Sys2Proof.Machine.execSkriv r s
  | .lik x y => Sys2Proof.Machine.execLik x y s
  | .ulik x y => Sys2Proof.Machine.execUlik x y s
  | .me x y => Sys2Proof.Machine.execMe x y s
  | .mel x y => Sys2Proof.Machine.execMel x y s
  | .se x y => Sys2Proof.Machine.execSe x y s
  | .sel x y => Sys2Proof.Machine.execSel x y s
  | .hopp a => Sys2Proof.Machine.execHopp a s
  | .bhopp a => Sys2Proof.Machine.execBhopp a s
  | .tur a => Sys2Proof.Machine.execTur a s
  | .retur => Sys2Proof.Machine.execRetur s
  | .nope => Sys2Proof.Machine.execNope s

end Sys2Proof.Machine
end

