-- ==== Sys2Proof/Machine/Cycle.lean ====
section
/-! DEFINITION. One cycle of the engine (spec/40_cycle.md R110), what it returns to a `run` or `step` command (R110,
R246), and the step-completed notification (R118). -/

namespace Sys2Proof.Machine

/-- Steps 2 to 4 of a cycle whose tick is counted: fetch, decode, execute (R112, R113, R114). An illegal word is decided
before any operand is looked at (R275). -/
def fetchExecute (s : State) : Host.Outcome State Fault Refusal :=
  match classify s.fetchWord with
  | .ok i => exec i s
  | .error _ => .next s.illegalWord

/-- One cycle (R110): step 1's budget test (R111), then steps 2 to 4. When `status` is not `Running` no cycle executes and
no state changes (R110; D11: log entry 11). Step 5, the breakpoint test, changes no state (R115): it stands in
`cycleOutcome`. -/
def cycle (s : State) : Host.Outcome State Fault Refusal :=
  if s.isRunning then
    if s.budgetSpent then .next s.refuseCycle else fetchExecute s.countTick
  else .next s

/-- The outcome a stored `status` names; none while it is `Running` (R244, R246). -/
def Status.outcome : Status → Option RunOutcome
  | .running => none
  | .halted => some .halted
  | .faulted kind a => some (.faulted kind a)

/-- What the cycle that ended in this state returns (R110, R115): halt and fault take precedence, then step 5's
breakpoint test on the new `pc` (D12: log entry 12). -/
def cycleOutcome (after : State) : RunOutcome :=
  match after.status.outcome with
  | some o => o
  | none => if after.breakpointAt after.pc then .breakpointHit else .continuing

/-- The step-completed notification of a cycle: the new `pc`, unless the cycle was refused in step 1 or there was none
(R118; D28: log entry 27). -/
def stepCompleted (before after : State) : Option Addr :=
  if before.isRunning && !before.budgetSpent then some after.pc else none

end Sys2Proof.Machine
end

