-- ==== Sys2Proof/Machine/Step.lean ====
section
/-! DEFINITION. The step of the machine: one cycle of the engine (spec/40_cycle.md R110, R116). -/

namespace Sys2Proof.Machine

/-- One step is one cycle (R116; D30: log entry 29). -/
def step (s : State) : Host.Outcome State Fault Refusal := cycle s

/-- The state with an instruction's word stored where the next cycle fetches: the byte at `pc` takes the low byte of the
low `nbits` bits of `w`, the byte at `(pc + 1) mod 4096` the next one (R51, R112). Log entry 31. -/
def State.withFetchWord (s : State) (nbits w : Nat) : State :=
  let bits := BitVec.ofNat 16 (w % 2 ^ nbits)
  (s.writeByte s.pc (bits.extractLsb' 0 8)).writeByte (s.pc + 1#12) (bits.extractLsb' 8 8)

end Sys2Proof.Machine
end

