-- ==== Sys2Proof/Machine/Text.lean ====
section
/-! DEFINITION. Printing: the mnemonics' spellings (spec/30_encoding.md R78), digits, and the text of one written
instruction (48_disassembler.md R222; formats are the spec's decision D22: log entry 22). -/

namespace Sys2Proof.Machine

/-- The spelling of a mnemonic (R78; twelve of them PRESUMED, from general knowledge, G1: log entry 8). -/
def mnemonicText : Mnemonic → Text
  | .stopp => "STOPP".toList
  | .sett => "SETT".toList
  | .finn => "FINN".toList
  | .last => "LAST".toList
  | .lagr => "LAGR".toList
  | .og => "OG".toList
  | .eller => "ELLER".toList
  | .xeller => "XELLER".toList
  | .vskift => "VSKIFT".toList
  | .hskift => "HSKIFT".toList
  | .pluss => "PLUSS".toList
  | .minus => "MINUS".toList
  | .les => "LES".toList
  | .skriv => "SKRIV".toList
  | .lik => "LIK".toList
  | .ulik => "ULIK".toList
  | .me => "ME".toList
  | .mel => "MEL".toList
  | .se => "SE".toList
  | .sel => "SEL".toList
  | .hopp => "HOPP".toList
  | .bhopp => "BHOPP".toList
  | .tur => "TUR".toList
  | .retur => "RETUR".toList
  | .nope => "NOPE".toList

/-- All 25 mnemonics. -/
def allMnemonics : List Mnemonic :=
  [.stopp, .sett, .finn, .last, .lagr, .og, .eller, .xeller, .vskift, .hskift, .pluss, .minus, .les, .skriv,
   .lik, .ulik, .me, .mel, .se, .sel, .hopp, .bhopp, .tur, .retur, .nope]

/-- An upper-case hexadecimal digit (R222). -/
def hexDigit (n : Nat) : Char := "0123456789ABCDEF".toList.getD n '0'

/-- The low `k` hexadecimal digits of a number (R222). -/
def hexText : Nat → Nat → Text
  | 0, _ => []
  | k + 1, n => hexText k (n / 16) ++ [hexDigit (n % 16)]

/-- `0x` and `k` upper-case digits (R222). -/
def hexNumber (k n : Nat) : Text := "0x".toList ++ hexText k n

/-- Bytes as a hex string, each byte two digits, in order (R249). DESIGN CHOICE: upper-case digits, nothing between or before
the bytes: log entry 45. -/
def hexBytes (bytes : List Byte) : Text := bytes.flatMap fun b => hexText 2 b.toNat

/-- A decimal number below 100, without a leading zero: the `n` of `r<n>` (R222). -/
def decText (n : Nat) : Text := if n < 10 then [hexDigit n] else [hexDigit (n / 10), hexDigit (n % 10)]

/-- How many digits the number of a mnemonic has: the SETT immediate 2, an address 3 (R222). -/
def numberDigits (m : Mnemonic) : Nat :=
  match m with
  | .sett => 2
  | _ => 3

/-- An operand as it is written (R222). -/
def operandText (digits : Nat) : Operand → Text
  | .reg n => 'r' :: decText n
  | .num n => hexNumber digits n
  | .label name => name

/-- Operands separated by `, ` (R222). -/
def operandsText (digits : Nat) : List Operand → Text
  | [] => []
  | [o] => operandText digits o
  | o :: os => operandText digits o ++ ", ".toList ++ operandsText digits os

/-- One written instruction: the mnemonic, one space, the operands (R222). -/
def sourceText (i : SourceInstr) : Text :=
  match i.operands with
  | [] => mnemonicText i.mnemonic
  | os => mnemonicText i.mnemonic ++ " ".toList ++ operandsText (numberDigits i.mnemonic) os

/-- The annotation of an illegal word (R222). -/
def reasonText : IllegalReason → Text
  | .unknownClass c => "unknown class ".toList ++ hexNumber 1 c.toNat
  | .unknownSubcode c sub =>
    "unknown sub-code ".toList ++ hexNumber 1 sub.toNat ++ " in class ".toList ++ hexNumber 1 c.toNat

end Sys2Proof.Machine
end

