-- ==== Sys2Proof/Machine/Asm.lean ====
section
/-! DEFINITION. The assembler's surface syntax and its per-line encoding (spec/30_encoding.md R86 to R93). The assembler as
a program is outside the block (00_scope.md R5); what the rules leave open is refused (93_implementation_defined.md U14):
log entry 26. -/

namespace Sys2Proof.Machine

/-- What the assembler reports (R92): each tagged with its source line. -/
inductive CompileErrorKind where
  | unrecognizedMnemonic
  | malformedOperand
  | wrongArguments
  | unresolvedLabel
  | duplicateLabel
  | malformedLabel
  | malformedData
  deriving DecidableEq, Repr

/-- A compile error and its line (R92). DESIGN CHOICE: lines are counted from 1: log entry 44. -/
structure CompileError where
  line : Nat
  kind : CompileErrorKind
  deriving DecidableEq, Repr

/-- A source line once read (R86): blank lines and comments leave nothing. -/
inductive SourceLine where
  | blank
  | label (name : Text)
  | data (bytes : List Byte)
  | instr (i : SourceInstr)
  deriving DecidableEq, Repr

/-- The label table (R88). -/
abbrev Labels := List (Text × Nat)

/-! ## Characters and pieces -/

/-- The single quote of a string literal (R89). -/
def quoteChar : Char := Char.ofNat 39

/-- What is trimmed and what ends a mnemonic (R86). DESIGN CHOICE: which characters these are: log entry 43. -/
def isSpace (c : Char) : Bool := c = ' ' || c = '\t' || c = '\r'

def isDigit (c : Char) : Bool := '0' ≤ c && c ≤ '9'

/-- The first character of an identifier (R86). DESIGN CHOICE, the spec gives none (N13): log entry 39. -/
def isIdentStart (c : Char) : Bool := ('a' ≤ c && c ≤ 'z') || ('A' ≤ c && c ≤ 'Z') || c = '_'

/-- A later character of an identifier (R86). DESIGN CHOICE, the spec gives none (N13): log entry 39. -/
def isIdentChar (c : Char) : Bool := isIdentStart c || isDigit c

/-- "Each line is trimmed", "each operand trimmed" (R86). -/
def trim (t : Text) : Text := ((t.dropWhile isSpace).reverse.dropWhile isSpace).reverse

/-- The pieces between the separators that stand outside single quotes. DESIGN CHOICE: a separator inside a literal belongs
to it: log entry 26. -/
def splitOutsideQuotes (sep : Char) : Bool → Text → List Text
  | _, [] => [[]]
  | quoted, c :: cs =>
    if c = sep && !quoted then [] :: splitOutsideQuotes sep false cs
    else
      match splitOutsideQuotes sep (if c = quoteChar then !quoted else quoted) cs with
      | [] => [[c]]
      | t :: ts => (c :: t) :: ts

/-- "A trailing `; comment` … is stripped before tokenizing" (R86). -/
def stripComment (t : Text) : Text := trim ((splitOutsideQuotes ';' false t).headD [])

/-- A comma-separated list, each piece trimmed; nothing at all is the empty list (R86). -/
def pieces (t : Text) : List Text :=
  match trim t with
  | [] => []
  | cs => (splitOutsideQuotes ',' false cs).map trim

/-! ## Numbers, registers, operands -/

/-- The value of a digit, below the base. DESIGN CHOICE: hexadecimal digits in either case (N13): log entry 40. -/
def digitValue (base : Nat) (c : Char) : Option Nat :=
  let n :=
    if isDigit c then c.toNat - 48
    else if 'A' ≤ c && c ≤ 'F' then c.toNat - 55
    else if 'a' ≤ c && c ≤ 'f' then c.toNat - 87
    else base
  if n < base then some n else none

/-- Digits read on from a value. -/
def digitsFrom (base : Nat) : Nat → Text → Option Nat
  | acc, [] => some acc
  | acc, c :: cs =>
    match digitValue base c with
    | some d => digitsFrom base (acc * base + d) cs
    | none => none

/-- "decimal or `0x`-prefixed hex" (R87). DESIGN CHOICE: the prefix in lower case only, leading zeros allowed (N13): log
entry 40. -/
def parseNumber : Text → Option Nat
  | [] => none
  | '0' :: 'x' :: c :: cs => digitsFrom 16 0 (c :: cs)
  | c :: cs => digitsFrom 10 0 (c :: cs)

/-- `r<n>`, n decimal and 0 to 15 (R87). DESIGN CHOICE: lower case and without leading zeros (D26 leaves it OPEN): log
entry 26. -/
def parseRegister : Text → Option Nat
  | 'r' :: c :: cs =>
    match digitsFrom 10 0 (c :: cs) with
    | some n => if n < Config.regCount ∧ decText n = c :: cs then some n else none
    | none => none
  | _ => none

/-- An identifier (R86). DESIGN CHOICE, the spec gives no characters (N13): a letter or `_`, then letters, digits and `_`:
log entry 39. -/
def isIdent : Text → Bool
  | [] => false
  | c :: cs => isIdentStart c && cs.all isIdentChar

/-- An operand (R87). DESIGN CHOICE: what is spelled like a register is one, also where a label of that name is bound: log
entry 41. -/
def parseOperand (t : Text) : Option Operand :=
  match parseRegister t with
  | some n => some (.reg n)
  | none =>
    match parseNumber t with
    | some n => some (.num n)
    | none => if isIdent t then some (.label t) else none

/-- All operands of a line. -/
def parseOperands : List Text → Option (List Operand)
  | [] => some []
  | t :: ts =>
    match parseOperand t, parseOperands ts with
    | some o, some os => some (o :: os)
    | _, _ => none

/-- The mnemonic a spelling stands for (R78). -/
def parseMnemonic (t : Text) : Option Mnemonic := allMnemonics.find? fun m => mnemonicText m == t

/-- "An instruction line is a mnemonic followed by a comma-separated operand list" (R86). -/
def parseInstr (t : Text) : Except CompileErrorKind SourceInstr :=
  match parseMnemonic (t.takeWhile (fun c => !isSpace c)) with
  | none => .error .unrecognizedMnemonic
  | some m =>
    match parseOperands (pieces (t.dropWhile (fun c => !isSpace c))) with
    | none => .error .malformedOperand
    | some os => .ok ⟨m, os⟩

/-! ## Data lines -/

/-- The bytes of an ASCII text (R89). -/
def asciiBytes : Text → Option (List Byte)
  | [] => some []
  | c :: cs =>
    match asciiBytes cs with
    | some bs => if c.toNat < 128 then some (BitVec.ofNat 8 c.toNat :: bs) else none
    | none => none

/-- One element of a `.DATA` line: a number is one raw byte, a single-quoted literal its ASCII bytes (R89).
DESIGN CHOICE: no escape is known, and an inner quote or a character that is not ASCII is an error (N13): log entry 42. -/
def parseDatum (t : Text) : Option (List Byte) :=
  match t with
  | [] => none
  | c :: cs =>
    if c = quoteChar then
      if cs.getLast? = some quoteChar ∧ cs.dropLast.all (fun x => x ≠ quoteChar) then asciiBytes cs.dropLast else none
    else
      match parseNumber t with
      | some n => if n < 2 ^ Config.regWidth then some [BitVec.ofNat 8 n] else none
      | none => none

/-- All elements of a `.DATA` line, in order (R89). -/
def parseData : List Text → Option (List Byte)
  | [] => some []
  | t :: ts =>
    match parseDatum t, parseData ts with
    | some bs, some rest => some (bs ++ rest)
    | _, _ => none

/-! ## Lines -/

/-- The directive's word (R86). -/
def dataWord : Text := ".DATA".toList

/-- The identifier in front of a `:`, with what follows the colon; none where the line is no label line (R86).
DESIGN CHOICE: no space before the colon: log entry 43. -/
def labelOfLine (t : Text) : Option (Text × Text) :=
  let name := t.takeWhile isIdentChar
  match t.dropWhile isIdentChar with
  | ':' :: rest => if isIdent name then some (name, rest) else none
  | _ => none

/-- A line, trimmed and classified (R86). DESIGN CHOICE: nothing may follow a label's colon, a data line needs an element
and no space after `.DATA`: log entries 26 and 43. -/
def parseLine (line : Text) : Except CompileErrorKind SourceLine :=
  match trim line with
  | [] => .ok .blank
  | ';' :: _ => .ok .blank
  | t =>
    match labelOfLine t with
    | some (name, []) => .ok (.label name)
    | some (_, _ :: _) => .error .malformedLabel
    | none =>
      if dataWord.isPrefixOf t then
        match pieces (stripComment (t.drop dataWord.length)) with
        | [] => .error .malformedData
        | p :: ps =>
          match parseData (p :: ps) with
          | some bs => .ok (.data bs)
          | none => .error .malformedData
      else
        match parseInstr (stripComment t) with
        | .ok i => .ok (.instr i)
        | .error e => .error e

/-- How far a line advances the address: an instruction by 2, a data line by the bytes it emits (R88; C11: log entry 38). -/
def SourceLine.size : SourceLine → Nat
  | .blank => 0
  | .label _ => 0
  | .data bs => bs.length
  | .instr _ => Config.instrBytes

/-! ## The two passes -/

/-- Read every line; the number is that of the first. -/
def parseLines : Nat → List Text → Except CompileError (List SourceLine)
  | _, [] => .ok []
  | n, l :: ls =>
    match parseLine l with
    | .error e => .error ⟨n, e⟩
    | .ok x =>
      match parseLines (n + 1) ls with
      | .error e => .error e
      | .ok xs => .ok (x :: xs)

/-- Pass 1: "a `label` line binds the current address"; label names are unique (R88). -/
def bindLabels : Nat → Nat → Labels → List SourceLine → Except CompileError Labels
  | _, _, labels, [] => .ok labels
  | n, address, labels, .label name :: ls =>
    if (labels.lookup name).isSome then .error ⟨n, .duplicateLabel⟩
    else bindLabels (n + 1) address ((name, address) :: labels) ls
  | n, address, labels, l :: ls => bindLabels (n + 1) (address + l.size) labels ls

/-- An address operand "label-or-numeric": its label looked up; an unresolved one is an error (R87, R92; D27: log
entry 26). -/
def resolve (labels : Labels) (i : SourceInstr) : Option SourceInstr :=
  match i.mnemonic.shape, i.operands with
  | .addr, [.label name] =>
    match labels.lookup name with
    | some a => some ⟨i.mnemonic, [.num a]⟩
    | none => none
  | _, _ => some i

/-- The bytes of a written instruction, or the error of R92. -/
def emitInstr (labels : Labels) (i : SourceInstr) : Except CompileErrorKind (List Byte) :=
  match resolve labels i with
  | none => .error .unresolvedLabel
  | some j =>
    match j.toInstr? with
    | some k => .ok (encodeBytes k)
    | none => .error .wrongArguments

/-- The bytes a line emits (R89, R91). -/
def emitLine (labels : Labels) : SourceLine → Except CompileErrorKind (List Byte)
  | .blank => .ok []
  | .label _ => .ok []
  | .data bs => .ok bs
  | .instr i => emitInstr labels i

/-- Pass 2: the concatenation of all encoded lines (R93). -/
def emitLines (labels : Labels) : Nat → List SourceLine → Except CompileError (List Byte)
  | _, [] => .ok []
  | n, l :: ls =>
    match emitLine labels l with
    | .error e => .error ⟨n, e⟩
    | .ok bs =>
      match emitLines labels (n + 1) ls with
      | .error e => .error e
      | .ok rest => .ok (bs ++ rest)

/-- The image of a program: "7-byte magic marker followed by the concatenation of all encoded lines" (R93).
DESIGN CHOICE: one error is reported, the first of the first pass that fails: log entry 44. -/
def assemble (source : Text) : Except CompileError (List Byte) :=
  match parseLines 1 (source.splitOn '\n') with
  | .error e => .error e
  | .ok lines =>
    match bindLabels 1 0 [] lines with
    | .error e => .error e
    | .ok labels =>
      match emitLines labels 1 lines with
      | .error e => .error e
      | .ok bytes => .ok (Config.magic ++ bytes)

end Sys2Proof.Machine
end

