-- ==== Sys2Proof/Machine/Commands.lean ====
section
/-! DEFINITION. The host's commands (spec/49_host_interface.md, 70_reset_and_hazards.md): each is one transaction between
cycles (R253; D30: log entry 29). What the host cannot do has no operation (R254). `resetRegisters` is in Ops, `disassemble`
and `memoryDump` are in Disasm. -/

namespace Sys2Proof.Machine

/-- What a `run` or `step` command leaves and returns (R246, R251): the state, the outcome, and the step-completed
notifications in order. -/
structure RunReport where
  state : State
  outcome : RunOutcome
  notified : List Addr
  deriving DecidableEq, Repr

/-- The count of a `step` command: "unbounded" is allowed (R244). -/
inductive StepCount where
  | count (n : Nat)
  | unbounded
  deriving DecidableEq, Repr

/-- A report with one more notification in front. -/
def RunReport.notify (note : Option Addr) (r : RunReport) : RunReport :=
  { r with notified := note.toList ++ r.notified }

/-- At most `n` cycles, stopping at the first whose result is not `continuing` (R243, R244). -/
def runLoop : Nat → State → Host.Outcome RunReport Fault Refusal
  | 0, s => .next ⟨s, .continuing, []⟩
  | n + 1, s =>
    match cycle s with
    | .fault f => .fault f
    | .refused r => .refused r
    | .next t =>
      match cycleOutcome t with
      | .continuing =>
        match runLoop n t with
        | .next rep => .next (rep.notify (stepCompleted s t))
        | .fault f => .fault f
        | .refused r => .refused r
      | o => .next ⟨t, o, (stepCompleted s t).toList⟩

namespace State

/-- How many cycles an unbounded loop can make: each one counts a tick, and one more is refused (R243, R308; log
entry 35). -/
def cyclesLeft (s : State) : Nat := s.maxTicks.toNat - s.tick.toNat + 1

/-- `run()` (R243): reset the registers, then cycle until something stops it. -/
def run (s : State) : Host.Outcome RunReport Fault Refusal :=
  runLoop s.resetRegisters.cyclesLeft s.resetRegisters

/-- `step(n)` (R244): no reset; a core that is not running returns the outcome its status names, unchanged. -/
def stepCommand (c : StepCount) (s : State) : Host.Outcome RunReport Fault Refusal :=
  match s.status.outcome with
  | some o => .next ⟨s, o, []⟩
  | none =>
    match c with
    | .count n => runLoop n s
    | .unbounded => runLoop s.cyclesLeft s

/-- The state of a successful load of these payload bytes (R301): all of memory, `memoryUsed`, the breakpoints and what
`resetRegisters` sets; `maxTicks` and `stdin` are kept (D14: log entry 14). -/
def withPayload (s : State) (payload : List Byte) : State :=
  { s.resetRegisters with
    memory := Memory.ofBytes payload, memoryUsed := payload.length, breakpoints := 0#4096 }

/-- `load(image, skipMagicValidation)` (R241, R301): size test, marker test, then everything but `maxTicks` and `stdin` is
set; a failed load answers its fault and changes nothing (R276; D14, D15: log entries 14 and 15). -/
def load (image : List Byte) (skipMagicValidation : Bool) (s : State) : Host.Outcome State Fault Refusal :=
  if image.length > Config.imageMax then .fault (.fileSizeTooBig image.length)
  else if skipMagicValidation then .next (s.withPayload image)
  else if image.take Config.magic.length = Config.magic then .next (s.withPayload (image.drop Config.magic.length))
  else .fault (.unsupportedExecutable image.length)

/-- `setMaxTicks(n)` (R245): the budget, and `tick` back to 0; `status` is not changed. -/
def setMaxTicks (n : Tick) (s : State) : State := { s with maxTicks := n, tick := 0#32 }

/-- get tick budget (R245). -/
def tickBudget (s : State) : Tick := s.maxTicks

/-- `setInput(bytes)` (R248): a new buffer, the cursor at its start (D18: log entry 18). -/
def setInput (bytes : List Byte) (s : State) : State := { s with stdin := bytes, inputPtr := 0 }

/-- Read the accumulated output (R249); reading does not consume it (D25: log entry 25). -/
def readOutput (s : State) : List Byte := s.outputStream

/-- Read the accumulated output "as a hex string" (R249), which does not consume it either (D25: log entry 25). DESIGN CHOICE: the string's format:
log entry 45. -/
def readOutputHex (s : State) : Text := hexBytes s.readOutput

/-- Read the register file, flag, pc and tick for display (R250). -/
def display (s : State) : Vector Byte 16 × Bool × Addr × Tick := (s.regs, s.flag, s.pc, s.tick)

/-- `setBp(a)` (R247). -/
def setBp (a : Addr) (s : State) : State :=
  { s with breakpoints := s.breakpoints ||| BitVec.twoPow 4096 a.toNat }

/-- `clearBp(a)` (R247). -/
def clearBp (a : Addr) (s : State) : State :=
  { s with breakpoints := s.breakpoints &&& ~~~(BitVec.twoPow 4096 a.toNat) }

/-- `toggleBp(a)` (R247). -/
def toggleBp (a : Addr) (s : State) : State :=
  { s with breakpoints := s.breakpoints ^^^ BitVec.twoPow 4096 a.toNat }

/-- `clearAllBp()` (R247). -/
def clearAllBp (s : State) : State := { s with breakpoints := 0#4096 }

/-- `getBp(a)` (R247). -/
def getBp (a : Addr) (s : State) : Bool := s.breakpointAt a

/-- `SetPC(a)` (R255): refused outside the loaded image unless that is allowed; it changes no `status` (D23: log
entry 23). -/
def setPcCommand (a : Addr) (options : RangeOptions) (s : State) : Host.Outcome State Fault Refusal :=
  if a.toNat < s.memoryUsed ∨ options.allowOutsideLoadedMemory = true then .next (s.setPc a)
  else .refused (.setPcOutsideImage a)

end State
end Sys2Proof.Machine
end

