-- ==== Sys2Proof/Machine/Disasm.lean ====
section
/-! DEFINITION. The disassembler (spec/48_disassembler.md) and the memory dump (49_host_interface.md R252): pure readers of
`memory` and `memoryUsed` (R226). -/

namespace Sys2Proof.Machine

/-- What `render` returns for two bytes (R221). -/
structure Rendered where
  valid : Bool
  consumed : Nat
  text : Text
  deriving DecidableEq, Repr

/-- One line of a disassembly (R224). -/
structure DisasmLine where
  address : Nat
  bytes : List Byte
  text : Text
  deriving DecidableEq, Repr

/-- `.DATA 0x<byte>` (R222). -/
def dataText (b : Byte) : Text := ".DATA ".toList ++ hexNumber 2 b.toNat

/-- The per-word function (R221): a legal word consumes two bytes and prints its instruction, don't-care bits not
printed; an illegal word consumes one byte and prints it as data with the decode error. -/
def render (opcode param : Byte) : Rendered :=
  match classify (wordOfBytes opcode param) with
  | .ok i => ⟨true, 2, sourceText i.toSource⟩
  | .error r => ⟨false, 1, dataText opcode ++ " ; ".toList ++ reasonText r⟩

/-- A last single byte of the range (R224). -/
def renderLast (b : Byte) : Rendered := ⟨false, 1, dataText b⟩

/-- The limit of a byte range: the loaded image, or all of memory on request (R224, R226). -/
def rangeLimit (options : RangeOptions) (s : State) : Nat :=
  if options.allowOutsideLoadedMemory then Config.memSize else s.memoryUsed

/-- The end of a byte range, clipped to the limit (R224). -/
def rangeEnd (start length : Nat) (options : RangeOptions) (s : State) : Nat :=
  min (start + length) (rangeLimit options s)

/-- The walker's step at an address below the end (R224). -/
def renderAt (m : Memory) (finish p : Nat) : Rendered :=
  if p + 1 < finish then render (m.read p) (m.read (p + 1)) else renderLast (m.read p)

/-- The walker (R224): two bytes at a time, one after an illegal word (R225). The first argument bounds the number of
lines. -/
def walk (m : Memory) (finish : Nat) : Nat → Nat → List DisasmLine
  | 0, _ => []
  | n + 1, p =>
    if p < finish then
      let r := renderAt m finish p
      ⟨p, [m.read p, m.read (p + 1)].take r.consumed, r.text⟩ :: walk m finish n (p + r.consumed)
    else []

/-- `disassemble(start, length, options)` (R224; options left out are the defaults, R226); length 0 stands for the default window, a free value (D22: log
entry 22). -/
def disassemble (start length : Nat) (options : RangeOptions) (s : State) : List DisasmLine :=
  let window := if length = 0 then Config.disasmDefaultLen else length
  let finish := rangeEnd start window options s
  walk s.memory finish (finish - start) start

/-- The addressed bytes of a memory dump, with the clipping of `disassemble` (R252). -/
def memoryRange (start length : Nat) (options : RangeOptions) (s : State) : List (Nat × Byte) :=
  (List.range' start (rangeEnd start length options s - start)).map fun a => (a, s.memory.read a)

/-- `memoryDump(start, length, options)` (R252): the text of those bytes, whose layout is a free value (log entry 34). -/
def memoryDump (start length : Nat) (options : RangeOptions) (s : State) : Text :=
  Config.dumpText (memoryRange start length options s)

end Sys2Proof.Machine
end

