-- ==== Sys2Proof/Safety.lean ====
section
/-! DEFINITION. The terms claims about the S8 core are stated in: the invariant of the machine, what a safe run is, and
what an instruction leaves unchanged. -/

namespace Sys2Proof.Machine

/-! ## The invariant and safe runs -/

/-- The bounds the spec puts on its state: memory in canonical form inside 4096 bytes (R34), `depth <= 100` (R26),
`tick <= maxTicks` (R28), `inputPtr <= length(stdin)` (R29), output at most 1000 bytes (R30), `memoryUsed <= 4096` (R33). -/
abbrev State.Inv (s : State) : Prop :=
  s.memory.wf ∧ s.callStack.length ≤ Config.callDepth ∧ s.tick.toNat ≤ s.maxTicks.toNat ∧
    s.inputPtr ≤ s.stdin.length ∧ s.outputStream.length ≤ Config.outMax ∧ s.memoryUsed ≤ Config.memSize

/-- Whether the core has stopped on a fault (R31). -/
def State.isFaulted (s : State) : Bool :=
  match s.status with
  | .running => false
  | .halted => false
  | .faulted _ _ => true

/-- `n` cycles from a state. -/
abbrev runSteps (n : Nat) (s : State) : Host.Outcome State Fault Refusal := Host.Core.run core n s

/-- No run from this state ends in a fault (R308: a normal end is `Halted`). -/
def SafeFrom (s : State) : Prop := ∀ (n : Nat) (t : State), runSteps n s = .next t → t.isFaulted = false

/-- A cycle can execute an instruction in this state: the core is running and its budget is not spent (R110, R111). -/
abbrev State.canCycle (s : State) : Prop := s.status = .running ∧ s.tick.toNat + 1 ≤ s.maxTicks.toNat

/-! ## What an instruction leaves unchanged -/

/-- What no instruction writes (R283): the tick is counted by the cycle, the rest is the host's. -/
def SameHostState (s t : State) : Prop :=
  t.tick = s.tick ∧ t.maxTicks = s.maxTicks ∧ t.stdin = s.stdin ∧ t.breakpoints = s.breakpoints ∧
    t.memoryUsed = s.memoryUsed

/-- Every register but those listed is unchanged. -/
def SameRegsBut (ds : List RegIdx) (s t : State) : Prop := ∀ r : RegIdx, r ∉ ds → t.readReg r = s.readReg r

/-- Every byte of memory but those at the listed addresses reads as before. -/
def SameMemoryBut (as : List Addr) (s t : State) : Prop := ∀ a : Addr, a ∉ as → t.readByte a = s.readByte a

/-- The registers and the memory but the listed ones, and all that no instruction writes, are unchanged. -/
def KeepsBut (ds : List RegIdx) (as : List Addr) (s t : State) : Prop :=
  SameRegsBut ds s t ∧ SameMemoryBut as s t ∧ SameHostState s t

/-- The call stack and the two streams are unchanged. -/
def SameStores (s t : State) : Prop :=
  t.callStack = s.callStack ∧ t.inputPtr = s.inputPtr ∧ t.outputStream = s.outputStream

/-- `pc` is past the instruction, stated below the top of memory; the wrap at the top is the spec's decision D3. -/
def Advanced (s t : State) : Prop := s.pc.toNat + 2 < 4096 → t.pc.toNat = s.pc.toNat + 2

/-- The instruction completes: it writes `v` to register `d`, advances, and leaves everything else. -/
def WritesRegister (i : Instr) (d : RegIdx) (v : Nat) (s : State) : Prop :=
  ∃ t, exec i s = .next t ∧ (t.readReg d).toNat = v ∧ Advanced s t ∧
    KeepsBut [d] [] s t ∧ t.flag = s.flag ∧ SameStores s t ∧ t.status = s.status

/-- The instruction completes: it writes `b` to the flag, advances, and leaves everything else. -/
def WritesFlag (i : Instr) (b : Prop) (s : State) : Prop :=
  ∃ t, exec i s = .next t ∧ (t.flag = true ↔ b) ∧ Advanced s t ∧
    KeepsBut [] [] s t ∧ SameStores s t ∧ t.status = s.status

/-- The instruction completes: it puts `pc` at `target` and leaves everything else. -/
def JumpsTo (i : Instr) (target : Addr) (s : State) : Prop :=
  ∃ t, exec i s = .next t ∧ t.pc = target ∧
    KeepsBut [] [] s t ∧ t.flag = s.flag ∧ SameStores s t ∧ t.status = s.status

/-- The bytes of an instruction in memory order, as numbers. -/
def byteValues (i : Instr) : List Nat := (encodeBytes i).map BitVec.toNat

/-! ## What a command reports, and what a line of source text stands for -/

/-- The outcome of a report is the one its state names (R244, R246). -/
def OutcomeMatchesState (rep : RunReport) : Prop :=
  (rep.outcome = .continuing → rep.state.status = .running) ∧
  (rep.outcome = .breakpointHit → rep.state.status = .running ∧ rep.state.breakpointAt rep.state.pc = true) ∧
  (rep.outcome = .halted → rep.state.status = .halted) ∧
  (∀ kind a, rep.outcome = .faulted kind a → rep.state.status = .faulted kind a)

/-- Whether a report's last cycle was refused in step 1 (R111). -/
def EndsRefused (rep : RunReport) : Prop := ∃ budget a, rep.outcome = .faulted (.resourcesExhausted budget) a

/-- A report after `made` cycles from `s`, none but the last of which stopped the command: their state, the outcome it
names, and one notification with the new `pc` for each cycle not refused (R118, R243, R244). -/
def ReportsCycles (s : State) (made : Nat) (rep : RunReport) : Prop :=
  runSteps made s = .next rep.state ∧
  (∀ k, 0 < k → k < made → ∃ t, runSteps k s = .next t ∧ cycleOutcome t = .continuing) ∧
  OutcomeMatchesState rep ∧
  (∀ k t, k < rep.notified.length → runSteps (k + 1) s = .next t → rep.notified[k]? = some t.pc) ∧
  (EndsRefused rep → rep.notified.length + 1 = made) ∧ (¬EndsRefused rep → rep.notified.length = made)

/-- A line of source text and the bytes it stands for (R88 to R91): the two bytes of an instruction, whose address operand
may be a label of the table. -/
def EncodedLine (labels : Labels) : SourceLine → List Byte → Prop
  | .blank, bytes => bytes = []
  | .label _, bytes => bytes = []
  | .data d, bytes => bytes = d
  | .instr i, bytes => ∃ j k, j.toInstr? = some k ∧ bytes = encodeBytes k ∧
      (j = i ∨ ∃ name a, i.operands = [.label name] ∧ labels.lookup name = some a ∧ j = ⟨i.mnemonic, [.num a]⟩)

end Sys2Proof.Machine
end

