-- ==== Sys2Proof/Certificates/Slice0/Obligations.lean ====
section
/-! DEFINITION. The statements for the provers, each from the numbered rules of spec/ named in its docstring. A clause that
rests on a decision the spec marks as its own (D<n>) says so and names the assumption log entry. -/

open Sys2Proof Sys2Proof.Machine

/-! ## Encoding (spec/30_encoding.md) -/

/-- R85: the codec round-trips every instruction with every operand, as a word and as bytes. (The other direction, which
the spec derives, is the next statement.) -/
def Obligations.EncodeThenClassifyRoundTrip : Prop :=
  ∀ (i : Instr) (rest : List Byte),
    classify (encode i) = .ok i ∧ decodeBytes (encodeBytes i ++ rest) = .ok (i, rest)

/-- R85's other direction, which the spec derives from R81 and R84: re-encoding gives the word back exactly when the
don't-care bits of its row are 0. That a word with such bits is legal is the spec's decision D10: log entry 10. -/
def Obligations.ClassifyThenEncodeIffCanonical : Prop :=
  ∀ (w : Word16) (i : Instr), classify w = .ok i →
    ∃ row, rowOfWord w = some row ∧ (encode i = w ↔ w &&& row.dontCare = 0#16)

/-- R81 (D10: log entry 10): the don't-care bits of a row change nothing: two words that agree on the other bits are the
same instruction. -/
def Obligations.DontCareBitsAreIgnored : Prop :=
  ∀ (w v : Word16) (row : OpcodeRow), rowOfWord w = some row →
    w &&& ~~~row.dontCare = v &&& ~~~row.dontCare → classify v = classify w

/-- R78: an instruction is selected when `(w & mask) = match`: a legal word is selected by exactly one row, the one of its
mnemonic, and an illegal word by none. The sub-code numbering and the ignored bits are the spec's decisions D8 and D10: log
entries 8 and 10. -/
def Obligations.WordsAreSelectedByOneRowOfTheOpcodeTable : Prop :=
  ∀ w : Word16,
    (∀ i, classify w = .ok i →
      ∃ row ∈ opcodeTable, row.mnemonic = i.toSource.mnemonic ∧
        ∀ r ∈ opcodeTable, (w &&& r.mask = r.selects ↔ r = row)) ∧
    (∀ reason, classify w = .error reason → ∀ r ∈ opcodeTable, w &&& r.mask ≠ r.selects)

/-- R80, R83: the illegal words are those of the table of R80, with the reason `UnknownClass` for the classes 0xD to 0xF
and `UnknownSubcode` for the others. That the lists of sub-codes are complete by their numbering, and that unused bits,
`operation` of RETUR and NOPE among them, make no word illegal, are the spec's decisions D8 and D10: log entries 8 and 10. -/
def Obligations.IllegalWordsAreThoseOfTheTable : Prop :=
  ∀ w : Word16,
    ((∃ c, classify w = .error (.unknownClass c)) ↔ 13 ≤ w.toNat % 16) ∧
    ((∃ c sub, classify w = .error (.unknownSubcode c sub)) ↔
      (w.toNat % 16 = 4 ∧ 2 ≤ w.toNat / 16 % 16) ∨ (w.toNat % 16 = 5 ∧ 7 ≤ w.toNat / 16 % 16) ∨
      (w.toNat % 16 = 6 ∧ 2 ≤ w.toNat / 16 % 16) ∨ (w.toNat % 16 = 7 ∧ 6 ≤ w.toNat / 16 % 16))

/-- R71: the word of two bytes, and the six fields by masking and shifting it. -/
def Obligations.FieldsAreMaskedAndShifted : Prop :=
  ∀ opcode param : Byte,
    let w := wordOfBytes opcode param
    let f := decodeFields w
    w.toNat = opcode.toNat ||| (param.toNat <<< 8) ∧
    f.operationClass.toNat = w.toNat &&& 0xF ∧
    f.operation.toNat = (w.toNat >>> 4) &&& 0xF ∧
    f.address.toNat = w.toNat >>> 4 ∧
    f.value.toNat = w.toNat >>> 8 ∧
    f.argument1.toNat = (w.toNat >>> 8) &&& 0xF ∧
    f.argument2.toNat = (w.toNat >>> 12) &&& 0xF

/-- R84: the canonical words by formula, and the two bytes stored, `opcode = w[7:0]` then `param = w[15:8]`. The sub-codes
are the spec's decision D8: log entry 8. -/
def Obligations.CanonicalWordsByFormula : Prop :=
  (∀ i : Instr, byteValues i = [(encode i).toNat % 256, (encode i).toNat / 256]) ∧
  (encode .stopp).toNat = 0x0000 ∧ (encode .retur).toNat = 0x000B ∧ (encode .nope).toNat = 0x000C ∧
  (∀ (d : RegIdx) (imm : Byte),
    (encode (.settImm d imm)).toNat = (imm.toNat <<< 8) ||| (d.toNat <<< 4) ||| 0x1) ∧
  (∀ a : Addr,
    (encode (.finn a)).toNat = (a.toNat <<< 4) ||| 0x3 ∧ (encode (.hopp a)).toNat = (a.toNat <<< 4) ||| 0x8 ∧
    (encode (.bhopp a)).toNat = (a.toNat <<< 4) ||| 0x9 ∧ (encode (.tur a)).toNat = (a.toNat <<< 4) ||| 0xA) ∧
  (∀ x : RegIdx,
    (encode (.last x)).toNat = (x.toNat <<< 8) ||| 0x04 ∧ (encode (.lagr x)).toNat = (x.toNat <<< 8) ||| 0x14 ∧
    (encode (.les x)).toNat = (x.toNat <<< 8) ||| 0x06 ∧ (encode (.skriv x)).toNat = (x.toNat <<< 8) ||| 0x16) ∧
  (∀ d s : RegIdx,
    (encode (.settReg d s)).toNat = (s.toNat <<< 8) ||| (d.toNat <<< 4) ||| 0x2 ∧
    [Instr.og d s, .eller d s, .xeller d s, .vskift d s, .hskift d s, .pluss d s, .minus d s].map
        (fun i => (encode i).toNat) =
      (List.range 7).map (fun sub => (s.toNat <<< 12) ||| (d.toNat <<< 8) ||| (sub <<< 4) ||| 0x5) ∧
    [Instr.lik d s, .ulik d s, .me d s, .mel d s, .se d s, .sel d s].map (fun i => (encode i).toNat) =
      (List.range 6).map (fun sub => (s.toNat <<< 12) ||| (d.toNat <<< 8) ||| (sub <<< 4) ||| 0x7))

/-- Words of the spec's own encodings (95_test_vectors.md K3, K5, K7, K10, K12, K15, K18, K21, K25, K26, K28) decode to the
instructions they stand for, and K14, K29 to none. The sub-codes of K12 and K18, and the ignored bits of K28, are the spec's
decisions D8 and D10: log entries 8 and 10. -/
def Obligations.WordsOfTheSpecDecode : Prop :=
  classify 0x0501#16 = .ok (.settImm 0#4 0x05#8) ∧ classify 0x0312#16 = .ok (.settReg 1#4 3#4) ∧
  classify 0x0183#16 = .ok (.finn 0x018#12) ∧ classify 0x0214#16 = .ok (.lagr 2#4) ∧
  classify 0x1055#16 = .ok (.pluss 0#4 1#4) ∧ classify 0x0206#16 = .ok (.les 2#4) ∧
  classify 0x4207#16 = .ok (.lik 2#4 4#4) ∧ classify 0x00A8#16 = .ok (.hopp 0x00A#12) ∧
  classify 0x006A#16 = .ok (.tur 0x006#12) ∧ classify 0x000B#16 = .ok .retur ∧ classify 0x050C#16 = .ok .nope ∧
  classify 0x1075#16 = .error (.unknownSubcode 5#4 7#4) ∧ classify 0x000D#16 = .error (.unknownClass 0xD#4)

/-! ## Reset and the invariant -/

/-- R300, R38: the state at power-on; the whole column is the spec's decision D16: log entry 16. -/
def Obligations.PowerOnState : Prop :=
  (∀ r : RegIdx, State.reset.readReg r = 0x00#8) ∧ (∀ a : Addr, State.reset.readByte a = 0x00#8) ∧
  State.reset.pc = 0x000#12 ∧ State.reset.flag = false ∧ State.reset.callStack = [] ∧
  State.reset.tick.toNat = 0 ∧ State.reset.maxTicks.toNat = 50000 ∧ State.reset.stdin = [] ∧
  State.reset.inputPtr = 0 ∧ State.reset.outputStream = [] ∧ State.reset.status = .running ∧
  (∀ a : Addr, State.reset.breakpointAt a = false) ∧ State.reset.memoryUsed = 0

/-- The bounds of R26, R28, R29, R30, R33 and the canonical form of memory (the model's own, log entry 36) hold in the state
of R300, which is the spec's decision D16: log entry 16. -/
def Obligations.PowerOnStateMeetsInvariant : Prop := State.reset.Inv

/-- The bounds of R26, R28, R29, R30, R33 and the canonical form of memory (the model's own, log entry 36) are kept by every
cycle. -/
def Obligations.StepKeepsInvariant : Prop :=
  ∀ s t : State, s.Inv → step s = .next t → t.Inv

/-- Every command of the host keeps the bounds of R26, R28, R29, R30, R33 and R34, so they hold whatever the host does between
cycles (R253): R241 and R301, R302, R243, R244, R245, R247, R248, R255. The canonical form of memory is the model's own, and
that `setInput` rewinds the cursor is the spec's decision D18: log entries 36 and 18. -/
def Obligations.CommandsKeepInvariant : Prop :=
  ∀ s : State, s.Inv →
    s.resetRegisters.Inv ∧ (∀ image skip t, s.load image skip = .next t → t.Inv) ∧
    (∀ n, (s.setMaxTicks n).Inv) ∧ (∀ bytes, (s.setInput bytes).Inv) ∧
    (∀ a, (s.setBp a).Inv ∧ (s.clearBp a).Inv ∧ (s.toggleBp a).Inv) ∧ s.clearAllBp.Inv ∧
    (∀ a options t, s.setPcCommand a options = .next t → t.Inv) ∧
    (∀ rep, s.run = .next rep → rep.state.Inv) ∧ (∀ c rep, s.stepCommand c = .next rep → rep.state.Inv)

/-- R52, R53, R58: a read after a write returns the byte written, every other byte reads as before, and writing the same
byte twice leaves the same memory. -/
def Obligations.ReadReturnsTheMostRecentWrite : Prop :=
  ∀ (s : State) (a : Addr) (v : Byte),
    (s.writeByte a v).readByte a = v ∧ SameMemoryBut [a] s (s.writeByte a v) ∧
    (s.writeByte a v).writeByte a v = s.writeByte a v

/-- R27: `push` and `pop`, each failing without change at its bound. -/
def Obligations.PushAndPopAreBounded : Prop :=
  ∀ (s : State) (v : Addr),
    (s.depth = 100 → s.push v = none) ∧
    (s.depth < 100 → ∃ t, s.push v = some t ∧ t.depth = s.depth + 1 ∧ t.callStack[s.depth]? = some v ∧
      (∀ k, k < s.depth → t.callStack[k]? = s.callStack[k]?) ∧ t.pop = some (v, s)) ∧
    (s.depth = 0 → s.pop = none) ∧
    (∀ d, s.depth = d + 1 → ∃ top t, s.pop = some (top, t) ∧ t.depth = d ∧ s.callStack[d]? = some top ∧
      (∀ k, k < d → t.callStack[k]? = s.callStack[k]?))

/-! ## The cycle (spec/40_cycle.md) -/

/-- R110, R112, R114: where the bytes at `pc` and `(pc + 1) mod 4096` decode to an instruction, a step of a running core
whose budget is not spent is that instruction's meaning, after one tick is counted. Where the tick is counted and that the
fetch wraps are the spec's decisions D1 and D3: log entries 1 and 3. -/
def Obligations.StepRunsTheDecodedInstruction : Prop :=
  ∀ (s : State) (i : Instr) (rest : List Byte), s.canCycle →
    decodeBytes [s.readByte s.pc, s.readByte (s.pc + 1#12)] = .ok (i, rest) →
    step s = exec i { s with tick := s.tick + 1#32 }

/-- R110, R244 (D11: log entry 11): once the status is not `Running`, no number of cycles changes the state, and a `step`
command of any count leaves it, notifies of nothing and returns the outcome the status names: `Halted` for a halted core,
the fault of its status for a faulted one. -/
def Obligations.StoppedCoreExecutesNothing : Prop :=
  ∀ (s : State) (c : StepCount),
    (s.status ≠ .running → ∀ n, runSteps n s = .next s) ∧
    (s.status = .halted → s.stepCommand c = .next ⟨s, .halted, []⟩) ∧
    (∀ kind a, s.status = .faulted kind a → s.stepCommand c = .next ⟨s, .faulted kind a, []⟩)

/-- R111: when `tick + 1 > maxTicks` the cycle is refused with `ResourcesExhausted` at `pc`, and nothing but the status
changes. That `tick` stays is the spec's decision D1: log entry 1. -/
def Obligations.SpentBudgetRefusesTheCycle : Prop :=
  ∀ s : State, s.status = .running → s.tick.toNat + 1 > s.maxTicks.toNat →
    ∃ t, step s = .next t ∧ t.status = .faulted (.resourcesExhausted s.maxTicks) s.pc ∧ t.pc = s.pc ∧
      KeepsBut [] [] s t ∧ t.flag = s.flag ∧ SameStores s t

/-- R119: every instruction, legal or not, costs exactly one tick. That a STOPP and a faulting cycle count it too is the
spec's decision D1: log entry 1. -/
def Obligations.EveryCycleCostsOneTick : Prop :=
  ∀ s t : State, s.canCycle → step s = .next t → t.tick.toNat = s.tick.toNat + 1

/-- R80, R132, R153, R168, R182, R197, R275: an illegal word raises `SegmentationFault` at its address before anything else
is written. The counted tick, `pc` left advanced (R114) and the wraps at the top are the spec's decisions D1, D2 and D3: log
entries 1, 2 and 3. -/
def Obligations.IllegalWordRaisesSegmentationFault : Prop :=
  ∀ (s : State) (reason : DecodeError), s.canCycle →
    decodeBytes [s.readByte s.pc, s.readByte (s.pc + 1#12)] = .error reason →
    ∃ t, step s = .next t ∧ t.status = .faulted .segmentationFault s.pc ∧ t.pc = s.pc + 2#12 ∧
      t.tick.toNat = s.tick.toNat + 1 ∧ (∀ r, t.readReg r = s.readReg r) ∧ (∀ a, t.readByte a = s.readByte a) ∧
      t.flag = s.flag ∧ SameStores s t ∧ t.maxTicks = s.maxTicks ∧ t.stdin = s.stdin ∧ t.breakpoints = s.breakpoints ∧
      t.memoryUsed = s.memoryUsed

/-- R117, R273: what a faulting cycle leaves: the address of its instruction in the status, `pc` + 2 or 0 or, refused by
the budget, unchanged, and everything else as before, the tick apart. The values of `tick` and `pc`, the wrap of `pc` at the
top and the unchanged cursor of a failed LES are the spec's decisions D1, D2, D3 and D19: log entries 1, 2, 3 and 19. -/
def Obligations.FaultsArePrecise : Prop :=
  ∀ (s t : State) (kind : FaultKind) (a : Addr), s.status = .running → step s = .next t →
    t.status = .faulted kind a →
    a = s.pc ∧ (∀ r, t.readReg r = s.readReg r) ∧ (∀ x, t.readByte x = s.readByte x) ∧ t.flag = s.flag ∧
    SameStores s t ∧ t.maxTicks = s.maxTicks ∧ t.stdin = s.stdin ∧ t.breakpoints = s.breakpoints ∧
    t.memoryUsed = s.memoryUsed ∧
    ((kind = .resourcesExhausted s.maxTicks ∧ t.tick = s.tick ∧ t.pc = s.pc ∧ s.tick.toNat + 1 > s.maxTicks.toNat) ∨
      (t.tick.toNat = s.tick.toNat + 1 ∧ t.pc = s.pc + 2#12) ∨
      (t.tick.toNat = s.tick.toNat + 1 ∧ t.pc = 0#12 ∧ kind = .segmentationFault ∧
        classify s.fetchWord = .ok .retur))

/-- R274: the instructions that can fault, each with its one fault and its one condition (R270, R275). The output bound, and
that LAST and LAGR never fault, are the spec's decisions D20 and D4: log entries 20 and 4. -/
def Obligations.InstructionsFaultOnlyAsListed : Prop :=
  ∀ (i : Instr) (s t : State) (kind : FaultKind) (a : Addr), s.status = .running → exec i s = .next t →
    t.status = .faulted kind a →
    ((∃ d, i = .les d) ∧ kind = .readAfterEndOfInput ∧ s.stdin.length ≤ s.inputPtr) ∨
    ((∃ r, i = .skriv r) ∧ kind = .segmentationFault ∧ 1000 ≤ s.outputStream.length) ∨
    ((∃ x, i = .tur x) ∧ kind = .recursionLimitExceeded ∧ 100 ≤ s.depth) ∨
    (i = .retur ∧ kind = .segmentationFault ∧ s.depth = 0)

/-- R308, which the spec derives from R111: every run ends, after at most `maxTicks - tick + 1` cycles. -/
def Obligations.EveryRunEnds : Prop :=
  ∀ s : State, ∃ n t, n ≤ s.maxTicks.toNat - s.tick.toNat + 1 ∧ runSteps n s = .next t ∧ t.status ≠ .running

/-- R51, R55: the fetch is little-endian, and at 0xFFF its second byte is the one at 0x000 (the wrap is the spec's decision
D3: log entry 3). -/
def Obligations.FetchIsLittleEndianAndWraps : Prop :=
  ∀ s : State,
    (s.pc.toNat < 4095 → ∃ a : Addr, a.toNat = s.pc.toNat + 1 ∧
      s.fetchWord.toNat = (s.readByte s.pc).toNat + 256 * (s.readByte a).toNat) ∧
    (s.pc = 0xFFF#12 → s.fetchWord.toNat = (s.readByte 0xFFF#12).toNat + 256 * (s.readByte 0x000#12).toNat)

/-- R23, R55: an instruction that does not jump, a BHOPP whose flag is false among them, leaves `pc` advanced by 2 modulo
4096; the wrap is the spec's decision D3: log entry 3. -/
def Obligations.AdvanceWrapsAtTheTop : Prop :=
  ∀ (i : Instr) (s t : State), exec i s = .next t → t.status = s.status →
    (∀ a, i ≠ .hopp a ∧ (i = .bhopp a → s.flag = false) ∧ i ≠ .tur a) → i ≠ .retur → i ≠ .stopp →
    t.pc.toNat = (s.pc.toNat + 2) % 4096

/-- R61: a store by LAGR is seen by every later fetch until the byte is stored to again, the very next one included: in any
state in which that byte still reads as the store left it. That the fetch of the second byte wraps is the spec's decision D3:
log entry 3. -/
def Obligations.StoreIsSeenByTheFetch : Prop :=
  ∀ (r : RegIdx) (s t u : State), exec (.lagr r) s = .next t → u.readByte s.pointer = t.readByte s.pointer →
    (u.pc = s.pointer → u.fetchWord.toNat % 256 = (s.readReg r).toNat) ∧
    (u.pc + 1#12 = s.pointer → u.fetchWord.toNat / 256 = (s.readReg r).toNat)

/-! ## STOPP and NOPE (spec/41_halt_nop.md) -/

/-- R130: STOPP halts with `pc` at the STOPP, whatever its other 12 bits; nothing but `status` and the counted tick
changes, no breakpoint test follows, and no further cycle runs. The counted tick, the ignored bits, that a halted core stays
so and the missing breakpoint test are the spec's decisions D1, D10, D11 and D12: log entries 1, 10, 11 and 12. -/
def Obligations.StoppHalts : Prop :=
  byteValues .stopp = [0x00, 0x00] ∧ (∀ w : Word16, w.toNat % 16 = 0 → classify w = .ok .stopp) ∧
  (∀ s, ∃ t, exec .stopp s = .next t ∧ t.status = .halted ∧ t.pc = s.pc ∧ KeepsBut [] [] s t ∧ t.flag = s.flag ∧
    SameStores s t) ∧
  (∀ s : State, s.canCycle → s.fetchWord.toNat % 16 = 0 →
    ∃ t, step s = .next t ∧ t.status = .halted ∧ t.pc = s.pc ∧ t.tick.toNat = s.tick.toNat + 1 ∧
      cycleOutcome t = .halted ∧ step t = .next t)

/-- R131: NOPE only advances `pc`, whatever its don't-care bits (the spec's decision D10: log entry 10); its cycle costs a
tick and ends with the breakpoint test. -/
def Obligations.NopeOnlyAdvances : Prop :=
  byteValues .nope = [0x0C, 0x00] ∧ (∀ w : Word16, w.toNat % 16 = 12 → classify w = .ok .nope) ∧
  (∀ s, ∃ t, exec .nope s = .next t ∧ Advanced s t ∧ KeepsBut [] [] s t ∧ t.flag = s.flag ∧ SameStores s t ∧
    t.status = s.status) ∧
  (∀ s : State, s.canCycle → s.fetchWord.toNat % 16 = 12 →
    ∃ t, step s = .next t ∧ t.tick.toNat = s.tick.toNat + 1 ∧
      cycleOutcome t = if s.breakpointAt t.pc then .breakpointHit else .continuing)

/-! ## SETT, FINN, LAST, LAGR (spec/42_set.md, 43_pointer_memory.md) -/

/-- R140: SETT rD, imm. -/
def Obligations.SettImmediateWritesItsRegister : Prop :=
  ∀ (d : RegIdx) (imm : Byte) (s : State),
    byteValues (.settImm d imm) = [16 * d.toNat + 1, imm.toNat] ∧ WritesRegister (.settImm d imm) d imm.toNat s

/-- R141: SETT rD, rS; that `w[15:12]` is ignored is the spec's decision D10: log entry 10. -/
def Obligations.SettRegisterCopies : Prop :=
  ∀ (d r : RegIdx) (s : State),
    byteValues (.settReg d r) = [16 * d.toNat + 2, r.toNat] ∧
    (∀ w : Word16, w.toNat % 4096 = (encode (.settReg d r)).toNat → classify w = .ok (.settReg d r)) ∧
    WritesRegister (.settReg d r) d (s.readReg r).toNat s

/-- R150: FINN loads the pointer pair: `r1` takes bits 11:8 of the address (the reading of C7: log entry 30), `r0` bits
7:0, and the effective address is then the address itself. -/
def Obligations.FinnLoadsThePointerPair : Prop :=
  ∀ (a : Addr) (s : State),
    byteValues (.finn a) = [16 * (a.toNat % 16) + 3, a.toNat / 16] ∧
    ∃ t, exec (.finn a) s = .next t ∧ (t.readReg 1#4).toNat = a.toNat / 256 ∧ (t.readReg 0#4).toNat = a.toNat % 256 ∧
      t.pointer = a ∧ Advanced s t ∧ KeepsBut [0#4, 1#4] [] s t ∧ t.flag = s.flag ∧ SameStores s t ∧ t.status = s.status

/-- R151: LAST loads the byte at the effective address `((x[1] << 8) | x[0]) & 0xFFF`, taken from the old pointer pair also
where rD is half of it. That every address may be read, beyond the image too, and that `w[15:12]` is ignored are the spec's
decisions D4 and D10: log entries 4 and 10. -/
def Obligations.LastLoadsThroughThePointer : Prop :=
  ∀ (d : RegIdx) (s : State),
    byteValues (.last d) = [0x04, d.toNat] ∧
    (∀ w : Word16, w.toNat % 4096 = (encode (.last d)).toNat → classify w = .ok (.last d)) ∧
    s.pointer.toNat = (((s.readReg 1#4).toNat <<< 8) ||| (s.readReg 0#4).toNat) &&& 0xFFF ∧
    WritesRegister (.last d) d (s.readByte s.pointer).toNat s

/-- R152: LAGR stores rS at the effective address and changes no other byte and no register. That every address may be
written, that `w[15:12]` is ignored and that `memoryUsed` is kept are the spec's decisions D4, D10 and D24: log entries 4, 10
and 24. -/
def Obligations.LagrStoresThroughThePointer : Prop :=
  ∀ (r : RegIdx) (s : State),
    byteValues (.lagr r) = [0x14, r.toNat] ∧
    (∀ w : Word16, w.toNat % 4096 = (encode (.lagr r)).toNat → classify w = .ok (.lagr r)) ∧
    ∃ t, exec (.lagr r) s = .next t ∧ t.readByte s.pointer = s.readReg r ∧ Advanced s t ∧
      KeepsBut [] [s.pointer] s t ∧ t.flag = s.flag ∧ SameStores s t ∧ t.status = s.status

/-! ## ALU (spec/44_alu.md) -/

/-- R161, R162, R163: OG, ELLER, XELLER compute bit by bit, and their corner cases for one register; the flag is untouched
and only rD is written. The sub-codes in the bytes are the spec's decision D8: log entry 8. -/
def Obligations.BitwiseOperations : Prop :=
  ∀ (d r : RegIdx) (s : State),
    byteValues (.og d r) = [0x05, 16 * r.toNat + d.toNat] ∧ byteValues (.eller d r) = [0x15, 16 * r.toNat + d.toNat] ∧
    byteValues (.xeller d r) = [0x25, 16 * r.toNat + d.toNat] ∧
    WritesRegister (.og d r) d ((s.readReg d).toNat &&& (s.readReg r).toNat) s ∧
    WritesRegister (.eller d r) d ((s.readReg d).toNat ||| (s.readReg r).toNat) s ∧
    WritesRegister (.xeller d r) d ((s.readReg d).toNat ^^^ (s.readReg r).toNat) s ∧
    WritesRegister (.og d d) d (s.readReg d).toNat s ∧ WritesRegister (.eller d d) d (s.readReg d).toNat s ∧
    WritesRegister (.xeller d d) d 0 s

/-- R166, R167: PLUSS adds and MINUS subtracts the source from the destination, both modulo 256, wrapping silently. The
sub-codes in the bytes are the spec's decision D8: log entry 8. -/
def Obligations.PlussAndMinusWrapModulo256 : Prop :=
  ∀ (d r : RegIdx) (s : State),
    byteValues (.pluss d r) = [0x55, 16 * r.toNat + d.toNat] ∧ byteValues (.minus d r) = [0x65, 16 * r.toNat + d.toNat] ∧
    WritesRegister (.pluss d r) d (((s.readReg d).toNat + (s.readReg r).toNat) % 256) s ∧
    WritesRegister (.minus d r) d (((s.readReg d).toNat + 256 - (s.readReg r).toNat) % 256) s

/-- R164, R165: VSKIFT and HSKIFT by the full register count. The full count and the logical right shift are the spec's
decisions D5 and D6, the sub-codes in the bytes D8: log entries 5, 6 and 8. -/
def Obligations.ShiftsByARegisterCount : Prop :=
  ∀ (d r : RegIdx) (s : State),
    byteValues (.vskift d r) = [0x35, 16 * r.toNat + d.toNat] ∧ byteValues (.hskift d r) = [0x45, 16 * r.toNat + d.toNat] ∧
    WritesRegister (.vskift d r) d (((s.readReg d).toNat * 2 ^ (s.readReg r).toNat) % 256) s ∧
    WritesRegister (.hskift d r) d ((s.readReg d).toNat / 2 ^ (s.readReg r).toNat) s ∧
    (8 ≤ (s.readReg r).toNat → WritesRegister (.vskift d r) d 0 s ∧ WritesRegister (.hskift d r) d 0 s)

/-! ## Compares (spec/46_compare.md) -/

/-- R190, R191: LIK sets the flag to `x[A] = x[B]`, ULIK to `x[A] != x[B]`, and nothing else is written. The sub-codes in the
bytes are the spec's decision D8: log entry 8. -/
def Obligations.LikAndUlikTestEquality : Prop :=
  ∀ (x y : RegIdx) (s : State),
    byteValues (.lik x y) = [0x07, 16 * y.toNat + x.toNat] ∧ byteValues (.ulik x y) = [0x17, 16 * y.toNat + x.toNat] ∧
    WritesFlag (.lik x y) ((s.readReg x).toNat = (s.readReg y).toNat) s ∧
    WritesFlag (.ulik x y) ((s.readReg x).toNat ≠ (s.readReg y).toNat) s

/-- R192 to R195: the ordered compares of unsigned values (the spec's decision D7: log entry 7), left operand first (D9: log
entry 9). The sub-codes in the bytes are D8: log entry 8. -/
def Obligations.OrderedComparesAreUnsigned : Prop :=
  ∀ (x y : RegIdx) (s : State),
    byteValues (.me x y) = [0x27, 16 * y.toNat + x.toNat] ∧ byteValues (.mel x y) = [0x37, 16 * y.toNat + x.toNat] ∧
    byteValues (.se x y) = [0x47, 16 * y.toNat + x.toNat] ∧ byteValues (.sel x y) = [0x57, 16 * y.toNat + x.toNat] ∧
    WritesFlag (.me x y) ((s.readReg x).toNat < (s.readReg y).toNat) s ∧
    WritesFlag (.mel x y) ((s.readReg x).toNat ≤ (s.readReg y).toNat) s ∧
    WritesFlag (.se x y) ((s.readReg y).toNat < (s.readReg x).toNat) s ∧
    WritesFlag (.sel x y) ((s.readReg y).toNat ≤ (s.readReg x).toNat) s

/-! ## Input and output (spec/45_io.md) -/

/-- R180: LES reads the next input byte where there is one, and otherwise raises `ReadAfterEndOfInput` with every register
unchanged. The cursor and `pc` after the fault, and its wrap, are the spec's decisions D19, D2 and D3: log entries 19, 2 and
3. -/
def Obligations.LesReadsTheNextInputByte : Prop :=
  ∀ (d : RegIdx) (s : State),
    (∀ b, s.stdin[s.inputPtr]? = some b →
      ∃ t, exec (.les d) s = .next t ∧ t.readReg d = b ∧ t.inputPtr = s.inputPtr + 1 ∧ Advanced s t ∧
        KeepsBut [d] [] s t ∧ t.flag = s.flag ∧ t.callStack = s.callStack ∧ t.outputStream = s.outputStream ∧
        t.status = s.status) ∧
    (s.stdin.length ≤ s.inputPtr →
      ∃ t, exec (.les d) s = .next t ∧ t.status = .faulted .readAfterEndOfInput s.pc ∧ t.pc = s.pc + 2#12 ∧
        KeepsBut [] [] s t ∧ t.flag = s.flag ∧ SameStores s t)

/-- R181: SKRIV appends rS to the output; the 1001st append raises `SegmentationFault` and appends nothing. The bound's
reading, `pc` after the fault, and its wrap are the spec's decisions D20, D2 and D3: log entries 20, 2 and 3. -/
def Obligations.SkrivAppendsToTheOutput : Prop :=
  ∀ (r : RegIdx) (s : State),
    (s.outputStream.length < 1000 →
      ∃ t, exec (.skriv r) s = .next t ∧ t.outputStream = s.outputStream ++ [s.readReg r] ∧ Advanced s t ∧
        KeepsBut [] [] s t ∧ t.flag = s.flag ∧ t.callStack = s.callStack ∧ t.inputPtr = s.inputPtr ∧
        t.status = s.status) ∧
    (1000 ≤ s.outputStream.length →
      ∃ t, exec (.skriv r) s = .next t ∧ t.status = .faulted .segmentationFault s.pc ∧ t.pc = s.pc + 2#12 ∧
        KeepsBut [] [] s t ∧ t.flag = s.flag ∧ SameStores s t)

/-! ## Control transfer (spec/47_control.md) -/

/-- R201, and R200 but for its tight loop, which is the next statement: HOPP puts `pc` at its address, any of the 4096; BHOPP
does so when the flag is true, falls through when it is false, and leaves the flag as it was. The breakpoint test of the cycle
uses the target. -/
def Obligations.HoppAndBhoppJump : Prop :=
  ∀ (a : Addr) (s : State),
    byteValues (.hopp a) = [16 * (a.toNat % 16) + 8, a.toNat / 16] ∧ JumpsTo (.hopp a) a s ∧
    byteValues (.bhopp a) = [16 * (a.toNat % 16) + 9, a.toNat / 16] ∧
    (s.flag = true → JumpsTo (.bhopp a) a s) ∧
    (s.flag = false → ∃ t, exec (.bhopp a) s = .next t ∧ Advanced s t ∧ JumpsTo (.bhopp a) t.pc s) ∧
    (s.canCycle → classify s.fetchWord = .ok (.hopp a) ∨ classify s.fetchWord = .ok (.bhopp a) ∧ s.flag = true →
      ∃ t, step s = .next t ∧ t.pc = a ∧ cycleOutcome t = if s.breakpointAt a then .breakpointHit else .continuing)

/-- R200, R111: a HOPP to itself is ended by the budget alone: it stays at its address, running, for exactly as many cycles
as the budget has left, and the next cycle raises `ResourcesExhausted` there. That the refused cycle counts no tick is the
spec's decision D1: log entry 1. -/
def Obligations.TightLoopEndsWhenTheBudgetIsSpent : Prop :=
  ∀ (s : State) (left : Nat), s.status = .running → classify s.fetchWord = .ok (.hopp s.pc) →
    s.tick.toNat + left = s.maxTicks.toNat →
    (∀ k, k ≤ left → ∃ t, runSteps k s = .next t ∧ t.status = .running ∧ t.pc = s.pc ∧ t.tick.toNat = s.tick.toNat + k) ∧
    ∃ t, runSteps (left + 1) s = .next t ∧ t.status = .faulted (.resourcesExhausted s.maxTicks) s.pc ∧ t.pc = s.pc ∧
      t.tick = s.maxTicks

/-- R202: TUR pushes the address after itself and jumps; with 100 entries on the stack it raises
`RecursionLimitExceeded` and neither pushes nor jumps. The wrap of the return address and `pc` after the fault are the
spec's decisions D3 and D2: log entries 3 and 2. -/
def Obligations.TurCallsUpToTheLimit : Prop :=
  ∀ (a : Addr) (s : State),
    (s.depth < 100 →
      ∃ t, exec (.tur a) s = .next t ∧ t.callStack = s.callStack ++ [s.pc + 2#12] ∧ t.pc = a ∧ KeepsBut [] [] s t ∧
        t.flag = s.flag ∧ t.inputPtr = s.inputPtr ∧ t.outputStream = s.outputStream ∧ t.status = s.status) ∧
    (s.depth = 100 →
      ∃ t, exec (.tur a) s = .next t ∧ t.status = .faulted .recursionLimitExceeded s.pc ∧ t.pc = s.pc + 2#12 ∧
        KeepsBut [] [] s t ∧ t.flag = s.flag ∧ SameStores s t)

/-- R203: RETUR pops the call stack into `pc`, whatever its don't-care bits, and the breakpoint test of its cycle uses the
popped address; on an empty stack it raises `SegmentationFault` at its own address and resets `pc` to 0. That `operation` is
among the don't-care bits is the spec's decision D10: log entry 10. -/
def Obligations.ReturReturnsOrFaultsAtZero : Prop :=
  byteValues .retur = [0x0B, 0x00] ∧ (∀ w : Word16, w.toNat % 16 = 11 → classify w = .ok .retur) ∧
  (∀ (s : State) (below : List Addr) (ra : Addr), s.callStack = below ++ [ra] →
    ∃ t, exec .retur s = .next t ∧ t.pc = ra ∧ t.callStack = below ∧ KeepsBut [] [] s t ∧ t.flag = s.flag ∧
      t.inputPtr = s.inputPtr ∧ t.outputStream = s.outputStream ∧ t.status = s.status) ∧
  (∀ (s : State) (below : List Addr) (ra : Addr), s.canCycle → s.fetchWord.toNat % 16 = 11 → s.callStack = below ++ [ra] →
    ∃ t, step s = .next t ∧ t.pc = ra ∧ cycleOutcome t = if s.breakpointAt ra then .breakpointHit else .continuing) ∧
  (∀ s : State, s.callStack = [] →
    ∃ t, exec .retur s = .next t ∧ t.pc = 0#12 ∧ t.status = .faulted .segmentationFault s.pc ∧ KeepsBut [] [] s t ∧
      t.flag = s.flag ∧ SameStores s t)

/-- R202, R203: calls return in last-in first-out order: a TUR, then any number of cycles that leave the call stack as the
TUR left it, then a RETUR, and `pc` is the address after the TUR and the stack is what it was. The wrap of that address is
the spec's decision D3: log entry 3. -/
def Obligations.ReturComesBackAfterTheCall : Prop :=
  ∀ (a : Addr) (s t u v : State), s.depth < 100 → exec (.tur a) s = .next t → u.callStack = t.callStack →
    exec .retur u = .next v → v.pc = s.pc + 2#12 ∧ v.callStack = s.callStack ∧ v.status = u.status

/-! ## Whole-machine rules -/

/-- R24: the flag is false at reset; the six compares, and no other instruction, write it, on every execution and whatever
it was; BHOPP, and no other instruction, reads it: all others do the same whatever the flag is. The value at reset is among
the spec's decision D16: log entry 16. -/
def Obligations.FlagIsWrittenByComparesAndReadByBhopp : Prop :=
  State.reset.flag = false ∧
  ∀ (i : Instr) (s t : State), exec i s = .next t →
    ((∃ x y, i = .lik x y ∨ i = .ulik x y ∨ i = .me x y ∨ i = .mel x y ∨ i = .se x y ∨ i = .sel x y) →
      ∀ b : Bool, exec i { s with flag := b } = .next t) ∧
    ((¬ ∃ x y, i = .lik x y ∨ i = .ulik x y ∨ i = .me x y ∨ i = .mel x y ∨ i = .se x y ∨ i = .sel x y) →
      t.flag = s.flag ∧
      ((∀ a, i ≠ .bhopp a) → ∀ b : Bool, exec i { s with flag := b } = .next { t with flag := b })) ∧
    (∀ a, i = .bhopp a → (s.flag = true → t.pc = a) ∧ (s.flag = false → Advanced s t))

/-- R22: which instructions write a general register, and which one. -/
def Obligations.RegistersAreWrittenOnlyAsListed : Prop :=
  ∀ (i : Instr) (s t : State) (d : RegIdx), exec i s = .next t → t.readReg d ≠ s.readReg d →
    (∃ imm, i = .settImm d imm) ∨ (∃ r, i = .settReg d r) ∨ (∃ a, i = .finn a ∧ (d = 0#4 ∨ d = 1#4)) ∨ i = .last d ∨
    (∃ r, i = .og d r ∨ i = .eller d r ∨ i = .xeller d r ∨ i = .vskift d r ∨ i = .hskift d r ∨ i = .pluss d r ∨
      i = .minus d r) ∨ i = .les d

/-- R25, R29, R30, R34: memory is written only by LAGR, at its effective address; the call stack only by TUR and RETUR; the
input cursor only by LES; the output only by SKRIV. -/
def Obligations.StoresAreReachedOnlyByTheirInstructions : Prop :=
  ∀ (i : Instr) (s t : State), exec i s = .next t →
    (∀ a, t.readByte a ≠ s.readByte a → (∃ r, i = .lagr r) ∧ a = s.pointer) ∧
    (t.callStack ≠ s.callStack → (∃ a, i = .tur a) ∨ i = .retur) ∧
    (t.inputPtr ≠ s.inputPtr → ∃ d, i = .les d) ∧
    (t.outputStream ≠ s.outputStream → ∃ r, i = .skriv r)

/-- R283, R33: a program cannot touch the host's state: no number of cycles changes the budget, the breakpoints, the input
buffer or `memoryUsed`; and `tick` never decreases (R28). That a store above the image keeps `memoryUsed` is the spec's
decision D24: log entry 24. -/
def Obligations.ProgramsCannotTouchHostState : Prop :=
  ∀ (n : Nat) (s t : State), runSteps n s = .next t →
    t.maxTicks = s.maxTicks ∧ t.breakpoints = s.breakpoints ∧ t.stdin = s.stdin ∧ t.memoryUsed = s.memoryUsed ∧
    s.tick.toNat ≤ t.tick.toNat

/-- R32, R33, R288: execution does not depend on the breakpoints or on `memoryUsed`: with others in their place every cycle
does the same. That no access is limited to the image is the spec's decision D4: log entry 4. -/
def Obligations.BreakpointsAndImageSizeAreInvisible : Prop :=
  ∀ (n : Nat) (s t : State) (bp : BitVec 4096) (used : Nat), runSteps n s = .next t →
    runSteps n { s with breakpoints := bp, memoryUsed := used } =
      .next { t with breakpoints := bp, memoryUsed := used }

/-! ## The host's commands (spec/49_host_interface.md, 70_reset_and_hazards.md) -/

/-- R301, R276: which images `load` rejects, the size tested before the marker, and what a successful one leaves. The order
of the tests, and what is cleared and kept, are the spec's decisions D14 and D15: log entries 14 and 15. -/
def Obligations.LoadChecksThenSetsTheLaunchState : Prop :=
  ∀ (image : List Byte) (skip : Bool) (s : State),
    (4096 < image.length → s.load image skip = .fault (.fileSizeTooBig image.length)) ∧
    (image.length ≤ 4096 → image.take 7 ≠ [0x2E, 0x53, 0x4C, 0x45, 0x44, 0x45, 0x38] →
      s.load image false = .fault (.unsupportedExecutable image.length)) ∧
    (∀ payload : List Byte, image.length ≤ 4096 →
      (skip = true ∧ payload = image ∨ skip = false ∧ image = [0x2E, 0x53, 0x4C, 0x45, 0x44, 0x45, 0x38] ++ payload) →
      ∃ t, s.load image skip = .next t ∧ (∀ a : Addr, t.readByte a = payload.getD a.toNat 0x00#8) ∧
        t.memoryUsed = payload.length ∧ (∀ r, t.readReg r = 0x00#8) ∧ t.pc = 0#12 ∧ t.flag = false ∧ t.callStack = [] ∧
        t.tick = 0#32 ∧ t.inputPtr = 0 ∧ t.outputStream = [] ∧ t.status = .running ∧
        (∀ a, t.breakpointAt a = false) ∧ t.maxTicks = s.maxTicks ∧ t.stdin = s.stdin)

/-- R302: what `resetRegisters` zeroes and what it keeps. Emptying the call stack is the spec's decision D13: log
entry 13. -/
def Obligations.ResetRegistersZeroesAndKeeps : Prop :=
  ∀ s : State,
    (∀ r, s.resetRegisters.readReg r = 0x00#8) ∧ s.resetRegisters.flag = false ∧ s.resetRegisters.pc = 0#12 ∧
    s.resetRegisters.tick = 0#32 ∧ s.resetRegisters.status = .running ∧ s.resetRegisters.inputPtr = 0 ∧
    s.resetRegisters.outputStream = [] ∧ s.resetRegisters.callStack = [] ∧
    SameMemoryBut [] s s.resetRegisters ∧ s.resetRegisters.memoryUsed = s.memoryUsed ∧
    s.resetRegisters.breakpoints = s.breakpoints ∧ s.resetRegisters.maxTicks = s.maxTicks ∧
    s.resetRegisters.stdin = s.stdin

/-- R243: `run` always ends: it resets the registers and cycles, it stops at the first cycle that halts, faults or hits a
breakpoint, and it reports that, with one notification for each cycle not refused (R118). That breakpoints stop it and the
notifications are the spec's decisions D12 and D28: log entries 12 and 27. -/
def Obligations.RunStopsAtTheFirstStop : Prop :=
  ∀ s : State, ∃ made rep, s.run = .next rep ∧ 0 < made ∧ ReportsCycles s.resetRegisters made rep ∧
    rep.outcome = cycleOutcome rep.state ∧ rep.outcome ≠ .continuing

/-- R244, R115: a `step` of a running core cycles from the state as it is, stopping at the first cycle that halts, faults or
hits a breakpoint, and reports that, with one notification for each cycle not refused (R118); with a count it makes no more
cycles than that, and all of them where none stops it; without bound it always stops at such a cycle. The refusal, the
breakpoint test, the notifications and the bound of the model's loop are log entries 1, 12, 27 and 35. -/
def Obligations.StepCommandMakesItsCycles : Prop :=
  ∀ (c : StepCount) (s : State), s.status = .running →
    ∃ made rep, s.stepCommand c = .next rep ∧ ReportsCycles s made rep ∧
      (made = 0 → rep.outcome = .continuing) ∧ (0 < made → rep.outcome = cycleOutcome rep.state) ∧
      (∀ n, c = .count n → made ≤ n ∧ (rep.outcome = .continuing → made = n)) ∧
      (c = .unbounded → rep.outcome ≠ .continuing)

/-- R247: set, clear, toggle and clear-all act on the breakpoint of their address and on nothing else, and a breakpoint fires
only where a cycle ends with `pc` at it. -/
def Obligations.BreakpointCommandsActOnTheirAddress : Prop :=
  ∀ (a b : Addr) (s : State),
    (s.setBp a).getBp b = (decide (b = a) || s.getBp b) ∧
    (s.clearBp a).getBp b = (!decide (b = a) && s.getBp b) ∧
    (s.toggleBp a).getBp b = (if b = a then !s.getBp b else s.getBp b) ∧
    s.clearAllBp.getBp b = false ∧ (cycleOutcome s = .breakpointHit → s.getBp s.pc = true) ∧
    { s.setBp a with breakpoints := s.breakpoints } = s ∧ { s.clearBp a with breakpoints := s.breakpoints } = s ∧
    { s.toggleBp a with breakpoints := s.breakpoints } = s ∧ { s.clearAllBp with breakpoints := s.breakpoints } = s

/-- R245, R248, R255: `setMaxTicks` sets the budget and zeroes `tick`, reviving no stopped core; `setInput` replaces the
buffer and rewinds the cursor; `SetPC` is refused outside the image unless that is allowed. These are the spec's decisions
D11, D18 and D23: log entries 11, 18 and 23. -/
def Obligations.BudgetInputAndPcCommands : Prop :=
  ∀ (s : State) (n : Tick) (bytes : List Byte) (a : Addr),
    s.setMaxTicks n = { s with maxTicks := n, tick := 0#32 } ∧ (s.setMaxTicks n).tickBudget = n ∧
    (s.status ≠ .running → step (s.setMaxTicks n) = .next (s.setMaxTicks n)) ∧
    s.setInput bytes = { s with stdin := bytes, inputPtr := 0 } ∧
    (∀ b, bytes.head? = some b → ∃ t, exec (.les 0#4) (s.setInput bytes) = .next t ∧ t.readReg 0#4 = b) ∧
    (a.toNat < s.memoryUsed → s.setPcCommand a {} = .next { s with pc := a }) ∧
    (s.memoryUsed ≤ a.toNat → s.setPcCommand a {} = .refused (.setPcOutsideImage a)) ∧
    s.setPcCommand a { allowOutsideLoadedMemory := true } = .next { s with pc := a }

/-! ## The disassembler and the written form (spec/48_disassembler.md, 30_encoding.md) -/

/-- R84, R90: the written instructions that encode are exactly the well-formed ones, and every instruction has a written
form that stands for it. -/
def Obligations.WrittenInstructionsEncodeWhenWellFormed : Prop :=
  (∀ src : SourceInstr, (∃ i, src.toInstr? = some i) ↔ src.wf = true) ∧
  (∀ i : Instr, i.toSource.wf = true ∧ i.toSource.toInstr? = some i)

/-- R221: two bytes are consumed by a legal word and one by an illegal word, and `valid` says which. What counts as
recognized is the spec's decision D22: log entry 22. -/
def Obligations.RenderConsumesByLegality : Prop :=
  ∀ opcode param : Byte,
    ((render opcode param).valid = true ↔ ∃ i, classify (wordOfBytes opcode param) = .ok i) ∧
    (render opcode param).consumed = if (render opcode param).valid then 2 else 1

/-- R222, R223: the text of a legal word, read by the surface syntax of R86 to R90, is the instruction of the word; so it
encodes to the word's canonical form. The format and the ignored bits are the spec's decisions D22 and D10, the lexical
choices of the reader the model's own: log entries 22, 10 and 26. -/
def Obligations.RenderedTextReassembles : Prop :=
  ∀ (opcode param : Byte) (i : Instr), classify (wordOfBytes opcode param) = .ok i →
    parseLine (render opcode param).text = .ok (.instr i.toSource) ∧
    emitInstr [] i.toSource = .ok (encodeBytes i)

/-- R224, R225, R226: the lines of a disassembly cover the range, clipped to the loaded image or, on request, to the 4096
bytes of memory, address by address and byte by byte, in order; without options the image is the limit. Clipping and the last
single byte are the spec's decision D22: log entry 22. -/
def Obligations.DisassemblyCoversTheRange : Prop :=
  ({} : RangeOptions).allowOutsideLoadedMemory = false ∧
  ∀ (start length : Nat) (options : RangeOptions) (s : State), 0 < length →
    ((disassemble start length options s).flatMap fun line =>
      (List.range' line.address line.bytes.length).zip line.bytes) =
    (List.range' start
      (min (start + length) (if options.allowOutsideLoadedMemory then 4096 else s.memoryUsed) - start)).map
        fun a => (a, s.memory.read a)

/-- R93, R301: an assembled image is the marker and then the bytes of the lines (R86 to R91), each label bound once, to the
number of bytes emitted before it (R88), and `load` with validation accepts it when it fits, leaving those bytes in memory
from address 0. What a line may look like, what a data line advances by and what a load leaves are log entries 26, 38 to 43
and 14. -/
def Obligations.AssembledImageLoads : Prop :=
  ∀ (source : Text) (image : List Byte) (s : State), assemble source = .ok image →
    ∃ (lines : List SourceLine) (labels : Labels) (parts : List (List Byte)),
      List.Forall₂ (fun text line => parseLine text = .ok line) (source.splitOn '\n') lines ∧
      (∀ (k : Nat) name, lines[k]? = some (.label name) → labels.lookup name = some (parts.take k).flatten.length) ∧
      (∀ (j k : Nat) name, lines[j]? = some (.label name) → lines[k]? = some (.label name) → j = k) ∧
      (∀ name, labels.lookup name ≠ none → SourceLine.label name ∈ lines) ∧
      List.Forall₂ (EncodedLine labels) lines parts ∧
      image = [0x2E, 0x53, 0x4C, 0x45, 0x44, 0x45, 0x38] ++ parts.flatten ∧
      (image.length ≤ 4096 →
        ∃ t, s.load image false = .next t ∧ t.memoryUsed = parts.flatten.length ∧
          ∀ a : Addr, t.readByte a = parts.flatten.getD a.toNat 0x00#8)
end

