-- ==== Sys2Proof/Laws/Asm.lean ====
section
/-! SUPPORT. What each pass of the assembler can do, one lemma per function (spec/30_encoding.md R86 to R93). -/

namespace Sys2Proof.Machine

theorem parseLines_ok {n : Nat} {texts : List Text} {lines : List SourceLine} (h : parseLines n texts = .ok lines) :
    List.Forall₂ (fun text line => parseLine text = .ok line) texts lines := by
  induction texts generalizing n lines with
  | nil => cases h; exact .nil
  | cons t ts ih =>
    simp only [parseLines] at h
    split at h
    · cases h
    · split at h
      · cases h
      · cases h; exact .cons (by assumption) (ih (by assumption))

/-- A resolved instruction is the written one, or has its label's address in the label's place. -/
theorem resolve_eq_some {labels : Labels} {i j : SourceInstr} (h : resolve labels i = some j) :
    j = i ∨ ∃ name a, i.operands = [.label name] ∧ labels.lookup name = some a ∧ j = ⟨i.mnemonic, [.num a]⟩ := by
  simp only [resolve] at h
  split at h
  · split at h
    · cases h; exact .inr ⟨_, _, by assumption, by assumption, rfl⟩
    · cases h
  · cases h; exact .inl rfl

theorem emitInstr_ok {labels : Labels} {i : SourceInstr} {bytes : List Byte} (h : emitInstr labels i = .ok bytes) :
    ∃ j k, resolve labels i = some j ∧ j.toInstr? = some k ∧ bytes = encodeBytes k := by
  simp only [emitInstr] at h
  split at h
  · cases h
  · split at h
    · cases h; exact ⟨_, _, by assumption, by assumption, rfl⟩
    · cases h

/-- An emitted line is encoded as the rules say, in as many bytes as it advances the address by. -/
theorem emitLine_ok {labels : Labels} {line : SourceLine} {bytes : List Byte} (h : emitLine labels line = .ok bytes) :
    EncodedLine labels line bytes ∧ bytes.length = line.size := by
  cases line with
  | blank => cases h; exact ⟨rfl, rfl⟩
  | label name => cases h; exact ⟨rfl, rfl⟩
  | data d => cases h; exact ⟨rfl, rfl⟩
  | instr i =>
    obtain ⟨j, k, hj, hk, rfl⟩ := emitInstr_ok h
    exact ⟨⟨j, k, hk, rfl, resolve_eq_some hj⟩, rfl⟩

theorem emitLines_ok {labels : Labels} {n : Nat} {lines : List SourceLine} {bytes : List Byte}
    (h : emitLines labels n lines = .ok bytes) :
    ∃ parts, List.Forall₂ (EncodedLine labels) lines parts ∧ bytes = parts.flatten ∧
      parts.map List.length = lines.map SourceLine.size := by
  induction lines generalizing n bytes with
  | nil => cases h; exact ⟨[], .nil, rfl, rfl⟩
  | cons l ls ih =>
    simp only [emitLines] at h
    split at h
    · cases h
    · rename_i b hb
      split at h
      · cases h
      · cases h
        obtain ⟨parts, h1, h2, h3⟩ := ih (by assumption)
        obtain ⟨e1, e2⟩ := emitLine_ok hb
        exact ⟨b :: parts, .cons e1 h1, by simp [h2], by simp [h3, e2]⟩

/-- What holds of the label table of `lines`, read from an address with a table already bound: old names keep their place,
each label of the lines is new, bound once and to the address it stands at, and no other name is added (R88). -/
def BindsLabels (address : Nat) (before : Labels) (lines : List SourceLine) (after : Labels) : Prop :=
  (∀ name, (before.lookup name).isSome → after.lookup name = before.lookup name) ∧
  (∀ (k : Nat) name, lines[k]? = some (.label name) →
    before.lookup name = none ∧ after.lookup name = some (address + ((lines.take k).map SourceLine.size).sum)) ∧
  (∀ (j k : Nat) name, lines[j]? = some (.label name) → lines[k]? = some (.label name) → j = k) ∧
  (∀ name, after.lookup name ≠ none → before.lookup name = none → SourceLine.label name ∈ lines)

/-- A line that is no label adds nothing to the table and its size to the address. -/
theorem BindsLabels.cons_of_not_label {address : Nat} {before after : Labels} {line : SourceLine}
    {lines : List SourceLine} (hline : ∀ name, line ≠ .label name)
    (h : BindsLabels (address + line.size) before lines after) : BindsLabels address before (line :: lines) after := by
  obtain ⟨old, new, once, only⟩ := h
  refine ⟨old, ?_, ?_, fun name x y => List.mem_cons_of_mem _ (only name x y)⟩
  · intro k name hk
    cases k with
    | zero => exact absurd (by simpa using hk) (hline name)
    | succ k =>
      obtain ⟨x, y⟩ := new k name (by simpa using hk)
      exact ⟨x, by rw [y]; simp; omega⟩
  · intro j k name hj hk
    cases j with
    | zero => exact absurd (by simpa using hj) (hline name)
    | succ j =>
      cases k with
      | zero => exact absurd (by simpa using hk) (hline name)
      | succ k => rw [once j k name (by simpa using hj) (by simpa using hk)]

theorem lookup_cons_ite (table : Labels) (bound name : Text) (a : Nat) :
    ((bound, a) :: table : Labels).lookup name = if name = bound then some a else table.lookup name := by
  by_cases h : name = bound
  · subst h; simp
  · have hq : (name == bound) = false := by simpa using h
    rw [List.lookup_cons, hq]; simp [h]

/-- A label line binds its new name to the address. -/
theorem BindsLabels.cons_label {address : Nat} {before after : Labels} {bound : Text} {lines : List SourceLine}
    (hnew : before.lookup bound = none) (h : BindsLabels address ((bound, address) :: before) lines after) :
    BindsLabels address before (.label bound :: lines) after := by
  obtain ⟨old, new, once, only⟩ := h
  simp only [lookup_cons_ite] at old new only
  have hbound : after.lookup bound = some address := by simpa using old bound
  have hno : ∀ k : Nat, lines[k]? ≠ some (.label bound) := fun k hk => by simpa using (new k bound hk).1
  refine ⟨?_, ?_, ?_, ?_⟩
  · intro name hs
    have hne : name ≠ bound := by rintro rfl; simp [hnew] at hs
    simpa [hne] using old name (by simpa [hne] using hs)
  · intro k name hk
    cases k with
    | zero =>
      obtain rfl : bound = name := by simpa using hk
      exact ⟨hnew, by simpa using hbound⟩
    | succ k =>
      obtain ⟨x, y⟩ := new k name (by simpa using hk)
      have hne : name ≠ bound := by rintro rfl; exact hno k (by simpa using hk)
      exact ⟨by simpa [hne] using x, by rw [y]; simp [SourceLine.size]⟩
  · intro j k name hj hk
    cases j with
    | zero =>
      obtain rfl : bound = name := by simpa using hj
      cases k with
      | zero => rfl
      | succ k => exact absurd (by simpa using hk) (hno k)
    | succ j =>
      cases k with
      | zero =>
        obtain rfl : bound = name := by simpa using hk
        exact absurd (by simpa using hj) (hno j)
      | succ k => rw [once j k name (by simpa using hj) (by simpa using hk)]
  · intro name x y
    by_cases hne : name = bound
    · subst hne; simp
    · exact List.mem_cons_of_mem _ (only name x (by simpa [hne] using y))

theorem bindLabels_ok {n address : Nat} {before after : Labels} {lines : List SourceLine}
    (h : bindLabels n address before lines = .ok after) : BindsLabels address before lines after := by
  induction lines generalizing n address before with
  | nil => cases h; exact ⟨fun _ _ => rfl, by simp, by simp, fun _ x y => absurd y x⟩
  | cons l ls ih =>
    cases l with
    | label bound =>
      simp only [bindLabels] at h
      split at h
      · cases h
      · rename_i hb
        exact .cons_label (Option.not_isSome_iff_eq_none.mp hb) (ih h)
    | blank => exact .cons_of_not_label (by simp) (ih h)
    | data d => exact .cons_of_not_label (by simp) (ih h)
    | instr i => exact .cons_of_not_label (by simp) (ih h)

end Sys2Proof.Machine
end

