-- ==== Sys2Proof/Laws/Codec.lean ====
section
/-! SUPPORT. The fields of words built from their parts: what the decoder reads from each format of the encoder
(spec/30_encoding.md R71, R72, R73). -/

namespace Sys2Proof

/-- The part above the low `k` bits of a concatenation is its upper operand. -/
theorem extract_append_high {m k : Nat} (x : BitVec m) (y : BitVec k) : (x ++ y).extractLsb' k m = x := by
  apply BitVec.eq_of_toNat_eq
  rw [BitVec.extractLsb'_toNat, BitVec.toNat_append, ← Nat.shiftLeft_add_eq_or_of_lt y.isLt, Nat.shiftLeft_eq,
    Nat.shiftRight_eq_div_pow, Nat.add_comm, Nat.add_mul_div_right _ _ (Nat.two_pow_pos k),
    Nat.div_eq_of_lt y.isLt, Nat.zero_add, Nat.mod_eq_of_lt x.isLt]

/-- Bits above the low operand of a concatenation are bits of its upper operand. -/
theorem extract_append_above {m k : Nat} (x : BitVec m) (y : BitVec k) (start len : Nat) :
    (x ++ y).extractLsb' (k + start) len = x.extractLsb' start len := by
  apply BitVec.eq_of_toNat_eq
  rw [BitVec.extractLsb'_toNat, BitVec.extractLsb'_toNat, BitVec.toNat_append,
    ← Nat.shiftLeft_add_eq_or_of_lt y.isLt, Nat.shiftLeft_eq, Nat.shiftRight_eq_div_pow, Nat.shiftRight_eq_div_pow,
    Nat.pow_add, ← Nat.div_div_eq_div_mul, Nat.add_comm, Nat.add_mul_div_right _ _ (Nat.two_pow_pos k),
    Nat.div_eq_of_lt y.isLt, Nat.zero_add]

/-- Bits inside the low operand of a concatenation are bits of it. -/
theorem extract_append_below {m k : Nat} (x : BitVec m) (y : BitVec k) (start len : Nat) (h : start + len ≤ k) :
    (x ++ y).extractLsb' start len = y.extractLsb' start len := by
  apply BitVec.eq_of_getLsbD_eq
  intro i hi
  simp only [BitVec.getLsbD_extractLsb', BitVec.getLsbD_append, hi, decide_true, Bool.true_and]
  rw [if_pos (by omega)]

theorem extract_all {m : Nat} (x : BitVec m) : x.extractLsb' 0 m = x := by
  apply BitVec.eq_of_toNat_eq
  rw [BitVec.extractLsb'_toNat, Nat.shiftRight_zero, Nat.mod_eq_of_lt x.isLt]

/-! ## What the decoder reads from each format -/

/-- The nibbles of a word given by its nibbles (R72). -/
theorem fields_of_nibbles (a2 a1 op c : Nibble) :
    (decodeFields (a2 ++ a1 ++ op ++ c)).operationClass = c ∧ (decodeFields (a2 ++ a1 ++ op ++ c)).operation = op ∧
    (decodeFields (a2 ++ a1 ++ op ++ c)).argument1 = a1 ∧ (decodeFields (a2 ++ a1 ++ op ++ c)).argument2 = a2 := by
  refine ⟨?_, ?_, ?_, ?_⟩
  · exact (extract_append_below (a2 ++ a1 ++ op) c 0 4 (by decide)).trans (extract_all c)
  · exact (extract_append_above (a2 ++ a1 ++ op) c 0 4).trans
      ((extract_append_below (a2 ++ a1) op 0 4 (by decide)).trans (extract_all op))
  · exact (extract_append_above (a2 ++ a1 ++ op) c 4 4).trans ((extract_append_above (a2 ++ a1) op 0 4).trans
      ((extract_append_below a2 a1 0 4 (by decide)).trans (extract_all a1)))
  · exact (extract_append_above (a2 ++ a1 ++ op) c 8 4).trans ((extract_append_above (a2 ++ a1) op 4 4).trans
      ((extract_append_above a2 a1 0 4).trans (extract_all a2)))

/-- Format A (R73): class and address. -/
theorem fields_of_address (a : Addr) (c : Nibble) :
    (decodeFields (a ++ c)).operationClass = c ∧ (decodeFields (a ++ c)).address = a :=
  ⟨(extract_append_below a c 0 4 (by decide)).trans (extract_all c), extract_append_high a c⟩

/-- Format I (R73): class, destination and immediate. -/
theorem fields_of_immediate (v : Byte) (d c : Nibble) :
    (decodeFields (v ++ d ++ c)).operationClass = c ∧ (decodeFields (v ++ d ++ c)).operation = d ∧
    (decodeFields (v ++ d ++ c)).value = v :=
  ⟨(extract_append_below (v ++ d) c 0 4 (by decide)).trans (extract_all c),
   (extract_append_above (v ++ d) c 0 4).trans ((extract_append_below v d 0 4 (by decide)).trans (extract_all d)),
   (extract_append_above (v ++ d) c 4 8).trans (extract_append_high v d)⟩

/-- The bytes of a word put together again (R51, R84). -/
theorem word_of_bytes_of_word (w : Word16) : wordOfBytes (w.extractLsb' 0 8) (w.extractLsb' 8 8) = w := by
  apply BitVec.eq_of_toNat_eq
  simp only [wordOfBytes, BitVec.toNat_append, BitVec.extractLsb'_toNat]
  rw [← Nat.shiftLeft_add_eq_or_of_lt (Nat.mod_lt _ (Nat.two_pow_pos 8)), Nat.shiftLeft_eq, Nat.shiftRight_eq_div_pow]
  have := w.isLt
  omega

end Sys2Proof
end

