-- ==== Sys2Proof/Laws/Memory.lean ====
section
/-! SUPPORT. Memory as data: reads after writes, the canonical form is kept by every memory operation, equal reads are
equal memories, and what a loaded memory reads as (spec/20_memory.md R50, R52, R58; 70_reset_and_hazards.md R301). -/

namespace Sys2Proof.Machine.Memory

@[simp] theorem read_nil (k : Nat) : Memory.read [] k = Config.unlistedByte := rfl

@[simp] theorem read_cons (c : Host.Cell) (m : Memory) (k : Nat) :
    Memory.read (c :: m) k = if k = c.1 then c.2 else Memory.read m k := rfl

/-- An address that no cell has reads as unlisted. -/
theorem read_of_not_mem {m : Memory} {k : Nat} (h : ∀ c ∈ m, c.1 ≠ k) : Memory.read m k = Config.unlistedByte := by
  induction m with
  | nil => rfl
  | cons c m ih =>
    rw [read_cons, if_neg (Ne.symm (h c (by simp)))]
    exact ih fun c hc => h c (by simp [hc])

/-! ## Reads after writes -/

theorem read_erase (m : Memory) (k x : Nat) :
    Memory.read (Memory.erase m k) x = if x = k then Config.unlistedByte else Memory.read m x := by
  induction m with
  | nil => simp [Memory.erase]
  | cons c m ih =>
    simp only [Memory.erase, List.filter_cons] at ih ⊢
    by_cases hc : c.1 = k
    · simp only [hc, bne_self_eq_false, Bool.false_eq_true, if_false, ih, read_cons]
      split_ifs <;> simp_all
    · simp only [bne_iff_ne, ne_eq, hc, not_false_eq_true, if_true, read_cons, ih]
      split_ifs <;> simp_all

theorem read_insert {m : Memory} {k : Nat} (h : ∀ c ∈ m, c.1 ≠ k) (v : Byte) (x : Nat) :
    Memory.read (Memory.insert m k v) x = if x = k then v else Memory.read m x := by
  induction m with
  | nil => simp [Memory.insert]
  | cons c m ih =>
    have hc : c.1 ≠ k := h c (by simp)
    simp only [Memory.insert]
    split_ifs with hlt hx hx
    · simp [hx]
    · simp [hx]
    · rw [read_cons, if_neg (by rw [hx]; exact Ne.symm hc), ih fun c hc => h c (by simp [hc]), if_pos hx]
    · rw [read_cons, read_cons, ih fun c hc => h c (by simp [hc]), if_neg hx]

theorem mem_erase {m : Memory} {k : Nat} {c : Host.Cell} : c ∈ Memory.erase m k ↔ c ∈ m ∧ c.1 ≠ k := by
  simp [Memory.erase]

/-- A read after a write: the byte written at its address, every other byte as before (R52, R58). -/
@[simp] theorem read_write (m : Memory) (k : Nat) (v : Byte) (x : Nat) :
    Memory.read (Memory.write m k v) x = if x = k then v else Memory.read m x := by
  unfold Memory.write
  split_ifs with hv hx hx
  · rw [read_erase, if_pos hx, hv]
  · rw [read_erase, if_neg hx]
  · rw [read_insert (fun c hc => (mem_erase.mp hc).2), if_pos hx]
  · rw [read_insert (fun c hc => (mem_erase.mp hc).2), if_neg hx, read_erase, if_neg hx]

theorem erase_insert (m : Memory) (k : Nat) (v : Byte) :
    Memory.erase (Memory.insert m k v) k = Memory.erase m k := by
  induction m with
  | nil => simp [Memory.insert, Memory.erase]
  | cons c m ih =>
    simp only [Memory.insert]
    split_ifs
    · simp [Memory.erase]
    · simp only [Memory.erase, List.filter_cons] at ih ⊢
      rw [ih]

theorem erase_erase (m : Memory) (k : Nat) : Memory.erase (Memory.erase m k) k = Memory.erase m k := by
  simp [Memory.erase]

/-- Writing the same address twice leaves the second byte: writes are idempotent (R53). -/
@[simp] theorem write_write (m : Memory) (k : Nat) (u v : Byte) :
    Memory.write (Memory.write m k u) k v = Memory.write m k v := by
  unfold Memory.write
  split_ifs <;> simp only [erase_insert, erase_erase]

/-! ## The canonical form -/

/-- A canonical memory: its head lies below the canonical tail, inside memory, and is not the unlisted byte. -/
theorem wf_cons {c : Host.Cell} {m : Memory} :
    Memory.wf (c :: m) ↔
      (∀ d ∈ m, c.1 < d.1) ∧ (c.2 ≠ Config.unlistedByte ∧ c.1 < Config.memSize) ∧ Memory.wf m := by
  simp only [Memory.wf, List.pairwise_cons, List.mem_cons, forall_eq_or_imp]
  tauto

theorem erase_wf {m : Memory} (h : m.wf) (k : Nat) : Memory.wf (Memory.erase m k) :=
  ⟨h.1.filter _, fun c hc => h.2 c (mem_erase.mp hc).1⟩

theorem mem_insert {m : Memory} {k : Nat} {v : Byte} {c : Host.Cell} (h : c ∈ Memory.insert m k v) :
    c = (k, v) ∨ c ∈ m := by
  induction m with
  | nil => simpa [Memory.insert] using h
  | cons d m ih =>
    simp only [Memory.insert] at h
    split_ifs at h <;> simp only [List.mem_cons] at h ⊢ <;> tauto

theorem insert_wf {m : Memory} (h : m.wf) {k : Nat} (hk : k < Config.memSize) (hm : ∀ c ∈ m, c.1 ≠ k) {v : Byte}
    (hv : v ≠ Config.unlistedByte) : Memory.wf (Memory.insert m k v) := by
  induction m with
  | nil => simp [Memory.insert, Memory.wf, hv, hk]
  | cons d m ih =>
    obtain ⟨hlt, hd, hm'⟩ := wf_cons.mp h
    simp only [Memory.insert]
    split_ifs with hkd
    · refine wf_cons.mpr ⟨fun c hc => ?_, ⟨hv, hk⟩, h⟩
      rcases List.mem_cons.mp hc with rfl | hc
      · exact hkd
      · exact Nat.lt_trans hkd (hlt c hc)
    · refine wf_cons.mpr ⟨fun c hc => ?_, hd, ih hm' fun c hc => hm c (by simp [hc])⟩
      rcases mem_insert hc with rfl | hc
      · have := hm d (by simp)
        exact Nat.lt_of_le_of_ne (Nat.le_of_not_lt hkd) this
      · exact hlt c hc

/-- A write inside memory keeps the canonical form. -/
theorem write_wf {m : Memory} (h : m.wf) {k : Nat} (hk : k < Config.memSize) (v : Byte) :
    Memory.wf (Memory.write m k v) := by
  unfold Memory.write
  split_ifs with hv
  · exact erase_wf h k
  · exact insert_wf (erase_wf h k) hk (fun c hc => (mem_erase.mp hc).2) hv

/-- Canonical memories that read alike are equal. -/
theorem eq_of_read {m n : Memory} (hm : m.wf) (hn : n.wf)
    (h : ∀ k, k < Config.memSize → Memory.read m k = Memory.read n k) : m = n := by
  induction m generalizing n with
  | nil =>
    cases n with
    | nil => rfl
    | cons c n =>
      obtain ⟨-, ⟨hb, ha⟩, -⟩ := wf_cons.mp hn
      have := h c.1 ha
      rw [read_nil, read_cons, if_pos rfl] at this
      exact absurd this.symm hb
  | cons c m ih =>
    obtain ⟨hlt, ⟨hb, ha⟩, hm'⟩ := wf_cons.mp hm
    cases n with
    | nil =>
      have := h c.1 ha
      rw [read_nil, read_cons, if_pos rfl] at this
      exact absurd this hb
    | cons d n =>
      obtain ⟨hlt', ⟨hb', ha'⟩, hn'⟩ := wf_cons.mp hn
      have hread := h c.1 ha
      have hread' := h d.1 ha'
      rw [read_cons, if_pos rfl, read_cons] at hread
      rw [read_cons, read_cons, if_pos rfl] at hread'
      have hcd : c.1 = d.1 := by
        rcases Nat.lt_trichotomy c.1 d.1 with hl | he | hl
        · rw [if_neg (Nat.ne_of_lt hl), read_of_not_mem fun e he => by have := hlt' e he; omega] at hread
          exact absurd hread hb
        · exact he
        · rw [if_neg (Nat.ne_of_lt hl), read_of_not_mem fun e he => by have := hlt e he; omega] at hread'
          exact absurd hread'.symm hb'
      rw [if_pos hcd] at hread
      have hc : c = d := Prod.ext hcd hread
      subst hc
      congr 1
      refine ih hm' hn' fun k hk => ?_
      by_cases hkc : k = c.1
      · rw [read_of_not_mem fun e he => by have := hlt e he; omega,
          read_of_not_mem fun e he => by have := hlt' e he; omega]
      · simpa only [read_cons, if_neg hkc] using h k hk

/-! ## A loaded memory -/

theorem le_of_mem_ofBytesFrom {k : Nat} {bs : List Byte} {c : Host.Cell} (h : c ∈ Memory.ofBytesFrom k bs) :
    k ≤ c.1 ∧ c.1 < k + bs.length ∧ c.2 ≠ Config.unlistedByte := by
  induction bs generalizing k with
  | nil => simp [Memory.ofBytesFrom] at h
  | cons b bs ih =>
    simp only [Memory.ofBytesFrom] at h
    split_ifs at h with hb
    · obtain ⟨h1, h2, h3⟩ := ih h
      exact ⟨by omega, by simp only [List.length_cons]; omega, h3⟩
    · rcases List.mem_cons.mp h with rfl | h
      · exact ⟨Nat.le_refl _, by simp, hb⟩
      · obtain ⟨h1, h2, h3⟩ := ih h
        exact ⟨by omega, by simp only [List.length_cons]; omega, h3⟩

theorem ofBytesFrom_wf (bs : List Byte) (k : Nat) (h : k + bs.length ≤ Config.memSize) :
    Memory.wf (Memory.ofBytesFrom k bs) := by
  induction bs generalizing k with
  | nil => simp [Memory.ofBytesFrom, Memory.wf]
  | cons b bs ih =>
    simp only [List.length_cons] at h
    simp only [Memory.ofBytesFrom]
    split_ifs with hb
    · exact ih (k + 1) (by omega)
    · refine wf_cons.mpr ⟨fun d hd => ?_, ⟨hb, by show k < _; omega⟩, ih (k + 1) (by omega)⟩
      exact (le_of_mem_ofBytesFrom hd).1

/-- A loaded memory is canonical when the payload fits (R301). -/
theorem ofBytes_wf {bs : List Byte} (h : bs.length ≤ Config.memSize) : Memory.wf (Memory.ofBytes bs) :=
  ofBytesFrom_wf bs 0 (by simpa using h)

theorem read_ofBytesFrom (bs : List Byte) (k x : Nat) :
    Memory.read (Memory.ofBytesFrom k bs) (k + x) = bs.getD x Config.unlistedByte := by
  induction bs generalizing k x with
  | nil => simp [Memory.ofBytesFrom]
  | cons b bs ih =>
    simp only [Memory.ofBytesFrom]
    cases x with
    | zero =>
      split_ifs with hb
      · rw [read_of_not_mem fun c hc => by have := (le_of_mem_ofBytesFrom hc).1; omega]
        simp [hb]
      · simp
    | succ x =>
      have := ih (k + 1) x
      rw [show k + 1 + x = k + (x + 1) by omega] at this
      split_ifs with hb
      · simpa using this
      · rw [read_cons, if_neg (by show ¬ k + (x + 1) = k; omega)]
        simpa using this

/-- A loaded memory reads as the payload and 0x00 beyond it (R301). -/
@[simp] theorem read_ofBytes (bs : List Byte) (x : Nat) :
    Memory.read (Memory.ofBytes bs) x = bs.getD x Config.unlistedByte := by
  simpa [Memory.ofBytes] using read_ofBytesFrom bs 0 x

end Sys2Proof.Machine.Memory
end

