-- ==== Sys2Proof/Laws/State.lean ====
section
/-! SUPPORT. One lemma per field per update of the state, and one per named read per update, so that no proof unfolds a
record update. -/

namespace Sys2Proof.Machine.State

@[simp] theorem writeReg_regs (s : State) (i : RegIdx) (v : Byte) : (s.writeReg i v).regs = s.regs.set i.toNat v i.isLt := rfl
@[simp] theorem writeReg_pc (s : State) (i : RegIdx) (v : Byte) : (s.writeReg i v).pc = s.pc := rfl
@[simp] theorem writeReg_flag (s : State) (i : RegIdx) (v : Byte) : (s.writeReg i v).flag = s.flag := rfl
@[simp] theorem writeReg_callStack (s : State) (i : RegIdx) (v : Byte) : (s.writeReg i v).callStack = s.callStack := rfl
@[simp] theorem writeReg_tick (s : State) (i : RegIdx) (v : Byte) : (s.writeReg i v).tick = s.tick := rfl
@[simp] theorem writeReg_maxTicks (s : State) (i : RegIdx) (v : Byte) : (s.writeReg i v).maxTicks = s.maxTicks := rfl
@[simp] theorem writeReg_stdin (s : State) (i : RegIdx) (v : Byte) : (s.writeReg i v).stdin = s.stdin := rfl
@[simp] theorem writeReg_inputPtr (s : State) (i : RegIdx) (v : Byte) : (s.writeReg i v).inputPtr = s.inputPtr := rfl
@[simp] theorem writeReg_outputStream (s : State) (i : RegIdx) (v : Byte) : (s.writeReg i v).outputStream = s.outputStream := rfl
@[simp] theorem writeReg_status (s : State) (i : RegIdx) (v : Byte) : (s.writeReg i v).status = s.status := rfl
@[simp] theorem writeReg_breakpoints (s : State) (i : RegIdx) (v : Byte) : (s.writeReg i v).breakpoints = s.breakpoints := rfl
@[simp] theorem writeReg_memory (s : State) (i : RegIdx) (v : Byte) : (s.writeReg i v).memory = s.memory := rfl
@[simp] theorem writeReg_memoryUsed (s : State) (i : RegIdx) (v : Byte) : (s.writeReg i v).memoryUsed = s.memoryUsed := rfl
@[simp] theorem writeReg_readByte (s : State) (i : RegIdx) (v : Byte) (x : Addr) : (s.writeReg i v).readByte x = s.readByte x := rfl

@[simp] theorem setPc_regs (s : State) (t : Addr) : (s.setPc t).regs = s.regs := rfl
@[simp] theorem setPc_pc (s : State) (t : Addr) : (s.setPc t).pc = t := rfl
@[simp] theorem setPc_flag (s : State) (t : Addr) : (s.setPc t).flag = s.flag := rfl
@[simp] theorem setPc_callStack (s : State) (t : Addr) : (s.setPc t).callStack = s.callStack := rfl
@[simp] theorem setPc_tick (s : State) (t : Addr) : (s.setPc t).tick = s.tick := rfl
@[simp] theorem setPc_maxTicks (s : State) (t : Addr) : (s.setPc t).maxTicks = s.maxTicks := rfl
@[simp] theorem setPc_stdin (s : State) (t : Addr) : (s.setPc t).stdin = s.stdin := rfl
@[simp] theorem setPc_inputPtr (s : State) (t : Addr) : (s.setPc t).inputPtr = s.inputPtr := rfl
@[simp] theorem setPc_outputStream (s : State) (t : Addr) : (s.setPc t).outputStream = s.outputStream := rfl
@[simp] theorem setPc_status (s : State) (t : Addr) : (s.setPc t).status = s.status := rfl
@[simp] theorem setPc_breakpoints (s : State) (t : Addr) : (s.setPc t).breakpoints = s.breakpoints := rfl
@[simp] theorem setPc_memory (s : State) (t : Addr) : (s.setPc t).memory = s.memory := rfl
@[simp] theorem setPc_memoryUsed (s : State) (t : Addr) : (s.setPc t).memoryUsed = s.memoryUsed := rfl
@[simp] theorem setPc_readReg (s : State) (t : Addr) (r : RegIdx) : (s.setPc t).readReg r = s.readReg r := rfl
@[simp] theorem setPc_readByte (s : State) (t : Addr) (x : Addr) : (s.setPc t).readByte x = s.readByte x := rfl

@[simp] theorem advance_regs (s : State) : (s.advance).regs = s.regs := rfl
@[simp] theorem advance_pc (s : State) : (s.advance).pc = s.nextPc := rfl
@[simp] theorem advance_flag (s : State) : (s.advance).flag = s.flag := rfl
@[simp] theorem advance_callStack (s : State) : (s.advance).callStack = s.callStack := rfl
@[simp] theorem advance_tick (s : State) : (s.advance).tick = s.tick := rfl
@[simp] theorem advance_maxTicks (s : State) : (s.advance).maxTicks = s.maxTicks := rfl
@[simp] theorem advance_stdin (s : State) : (s.advance).stdin = s.stdin := rfl
@[simp] theorem advance_inputPtr (s : State) : (s.advance).inputPtr = s.inputPtr := rfl
@[simp] theorem advance_outputStream (s : State) : (s.advance).outputStream = s.outputStream := rfl
@[simp] theorem advance_status (s : State) : (s.advance).status = s.status := rfl
@[simp] theorem advance_breakpoints (s : State) : (s.advance).breakpoints = s.breakpoints := rfl
@[simp] theorem advance_memory (s : State) : (s.advance).memory = s.memory := rfl
@[simp] theorem advance_memoryUsed (s : State) : (s.advance).memoryUsed = s.memoryUsed := rfl
@[simp] theorem advance_readReg (s : State) (r : RegIdx) : (s.advance).readReg r = s.readReg r := rfl
@[simp] theorem advance_readByte (s : State) (x : Addr) : (s.advance).readByte x = s.readByte x := rfl

@[simp] theorem setFlag_regs (s : State) (b : Bool) : (s.setFlag b).regs = s.regs := rfl
@[simp] theorem setFlag_pc (s : State) (b : Bool) : (s.setFlag b).pc = s.pc := rfl
@[simp] theorem setFlag_flag (s : State) (b : Bool) : (s.setFlag b).flag = b := rfl
@[simp] theorem setFlag_callStack (s : State) (b : Bool) : (s.setFlag b).callStack = s.callStack := rfl
@[simp] theorem setFlag_tick (s : State) (b : Bool) : (s.setFlag b).tick = s.tick := rfl
@[simp] theorem setFlag_maxTicks (s : State) (b : Bool) : (s.setFlag b).maxTicks = s.maxTicks := rfl
@[simp] theorem setFlag_stdin (s : State) (b : Bool) : (s.setFlag b).stdin = s.stdin := rfl
@[simp] theorem setFlag_inputPtr (s : State) (b : Bool) : (s.setFlag b).inputPtr = s.inputPtr := rfl
@[simp] theorem setFlag_outputStream (s : State) (b : Bool) : (s.setFlag b).outputStream = s.outputStream := rfl
@[simp] theorem setFlag_status (s : State) (b : Bool) : (s.setFlag b).status = s.status := rfl
@[simp] theorem setFlag_breakpoints (s : State) (b : Bool) : (s.setFlag b).breakpoints = s.breakpoints := rfl
@[simp] theorem setFlag_memory (s : State) (b : Bool) : (s.setFlag b).memory = s.memory := rfl
@[simp] theorem setFlag_memoryUsed (s : State) (b : Bool) : (s.setFlag b).memoryUsed = s.memoryUsed := rfl
@[simp] theorem setFlag_readReg (s : State) (b : Bool) (r : RegIdx) : (s.setFlag b).readReg r = s.readReg r := rfl
@[simp] theorem setFlag_readByte (s : State) (b : Bool) (x : Addr) : (s.setFlag b).readByte x = s.readByte x := rfl

@[simp] theorem writeByte_regs (s : State) (a : Addr) (v : Byte) : (s.writeByte a v).regs = s.regs := rfl
@[simp] theorem writeByte_pc (s : State) (a : Addr) (v : Byte) : (s.writeByte a v).pc = s.pc := rfl
@[simp] theorem writeByte_flag (s : State) (a : Addr) (v : Byte) : (s.writeByte a v).flag = s.flag := rfl
@[simp] theorem writeByte_callStack (s : State) (a : Addr) (v : Byte) : (s.writeByte a v).callStack = s.callStack := rfl
@[simp] theorem writeByte_tick (s : State) (a : Addr) (v : Byte) : (s.writeByte a v).tick = s.tick := rfl
@[simp] theorem writeByte_maxTicks (s : State) (a : Addr) (v : Byte) : (s.writeByte a v).maxTicks = s.maxTicks := rfl
@[simp] theorem writeByte_stdin (s : State) (a : Addr) (v : Byte) : (s.writeByte a v).stdin = s.stdin := rfl
@[simp] theorem writeByte_inputPtr (s : State) (a : Addr) (v : Byte) : (s.writeByte a v).inputPtr = s.inputPtr := rfl
@[simp] theorem writeByte_outputStream (s : State) (a : Addr) (v : Byte) : (s.writeByte a v).outputStream = s.outputStream := rfl
@[simp] theorem writeByte_status (s : State) (a : Addr) (v : Byte) : (s.writeByte a v).status = s.status := rfl
@[simp] theorem writeByte_breakpoints (s : State) (a : Addr) (v : Byte) : (s.writeByte a v).breakpoints = s.breakpoints := rfl
@[simp] theorem writeByte_memory (s : State) (a : Addr) (v : Byte) : (s.writeByte a v).memory = s.memory.write a.toNat v := rfl
@[simp] theorem writeByte_memoryUsed (s : State) (a : Addr) (v : Byte) : (s.writeByte a v).memoryUsed = s.memoryUsed := rfl
@[simp] theorem writeByte_readReg (s : State) (a : Addr) (v : Byte) (r : RegIdx) : (s.writeByte a v).readReg r = s.readReg r := rfl

@[simp] theorem halt_regs (s : State) : (s.halt).regs = s.regs := rfl
@[simp] theorem halt_pc (s : State) : (s.halt).pc = s.pc := rfl
@[simp] theorem halt_flag (s : State) : (s.halt).flag = s.flag := rfl
@[simp] theorem halt_callStack (s : State) : (s.halt).callStack = s.callStack := rfl
@[simp] theorem halt_tick (s : State) : (s.halt).tick = s.tick := rfl
@[simp] theorem halt_maxTicks (s : State) : (s.halt).maxTicks = s.maxTicks := rfl
@[simp] theorem halt_stdin (s : State) : (s.halt).stdin = s.stdin := rfl
@[simp] theorem halt_inputPtr (s : State) : (s.halt).inputPtr = s.inputPtr := rfl
@[simp] theorem halt_outputStream (s : State) : (s.halt).outputStream = s.outputStream := rfl
@[simp] theorem halt_status (s : State) : (s.halt).status = .halted := rfl
@[simp] theorem halt_breakpoints (s : State) : (s.halt).breakpoints = s.breakpoints := rfl
@[simp] theorem halt_memory (s : State) : (s.halt).memory = s.memory := rfl
@[simp] theorem halt_memoryUsed (s : State) : (s.halt).memoryUsed = s.memoryUsed := rfl
@[simp] theorem halt_readReg (s : State) (r : RegIdx) : (s.halt).readReg r = s.readReg r := rfl
@[simp] theorem halt_readByte (s : State) (x : Addr) : (s.halt).readByte x = s.readByte x := rfl

@[simp] theorem raise_regs (s : State) (k : FaultKind) (a : Addr) : (s.raise k a).regs = s.regs := rfl
@[simp] theorem raise_pc (s : State) (k : FaultKind) (a : Addr) : (s.raise k a).pc = s.pc := rfl
@[simp] theorem raise_flag (s : State) (k : FaultKind) (a : Addr) : (s.raise k a).flag = s.flag := rfl
@[simp] theorem raise_callStack (s : State) (k : FaultKind) (a : Addr) : (s.raise k a).callStack = s.callStack := rfl
@[simp] theorem raise_tick (s : State) (k : FaultKind) (a : Addr) : (s.raise k a).tick = s.tick := rfl
@[simp] theorem raise_maxTicks (s : State) (k : FaultKind) (a : Addr) : (s.raise k a).maxTicks = s.maxTicks := rfl
@[simp] theorem raise_stdin (s : State) (k : FaultKind) (a : Addr) : (s.raise k a).stdin = s.stdin := rfl
@[simp] theorem raise_inputPtr (s : State) (k : FaultKind) (a : Addr) : (s.raise k a).inputPtr = s.inputPtr := rfl
@[simp] theorem raise_outputStream (s : State) (k : FaultKind) (a : Addr) : (s.raise k a).outputStream = s.outputStream := rfl
@[simp] theorem raise_status (s : State) (k : FaultKind) (a : Addr) : (s.raise k a).status = .faulted k a := rfl
@[simp] theorem raise_breakpoints (s : State) (k : FaultKind) (a : Addr) : (s.raise k a).breakpoints = s.breakpoints := rfl
@[simp] theorem raise_memory (s : State) (k : FaultKind) (a : Addr) : (s.raise k a).memory = s.memory := rfl
@[simp] theorem raise_memoryUsed (s : State) (k : FaultKind) (a : Addr) : (s.raise k a).memoryUsed = s.memoryUsed := rfl
@[simp] theorem raise_readReg (s : State) (k : FaultKind) (a : Addr) (r : RegIdx) : (s.raise k a).readReg r = s.readReg r := rfl
@[simp] theorem raise_readByte (s : State) (k : FaultKind) (a : Addr) (x : Addr) : (s.raise k a).readByte x = s.readByte x := rfl

@[simp] theorem faultHere_regs (s : State) (k : FaultKind) : (s.faultHere k).regs = s.regs := rfl
@[simp] theorem faultHere_pc (s : State) (k : FaultKind) : (s.faultHere k).pc = s.nextPc := rfl
@[simp] theorem faultHere_flag (s : State) (k : FaultKind) : (s.faultHere k).flag = s.flag := rfl
@[simp] theorem faultHere_callStack (s : State) (k : FaultKind) : (s.faultHere k).callStack = s.callStack := rfl
@[simp] theorem faultHere_tick (s : State) (k : FaultKind) : (s.faultHere k).tick = s.tick := rfl
@[simp] theorem faultHere_maxTicks (s : State) (k : FaultKind) : (s.faultHere k).maxTicks = s.maxTicks := rfl
@[simp] theorem faultHere_stdin (s : State) (k : FaultKind) : (s.faultHere k).stdin = s.stdin := rfl
@[simp] theorem faultHere_inputPtr (s : State) (k : FaultKind) : (s.faultHere k).inputPtr = s.inputPtr := rfl
@[simp] theorem faultHere_outputStream (s : State) (k : FaultKind) : (s.faultHere k).outputStream = s.outputStream := rfl
@[simp] theorem faultHere_status (s : State) (k : FaultKind) : (s.faultHere k).status = .faulted k s.pc := rfl
@[simp] theorem faultHere_breakpoints (s : State) (k : FaultKind) : (s.faultHere k).breakpoints = s.breakpoints := rfl
@[simp] theorem faultHere_memory (s : State) (k : FaultKind) : (s.faultHere k).memory = s.memory := rfl
@[simp] theorem faultHere_memoryUsed (s : State) (k : FaultKind) : (s.faultHere k).memoryUsed = s.memoryUsed := rfl
@[simp] theorem faultHere_readReg (s : State) (k : FaultKind) (r : RegIdx) : (s.faultHere k).readReg r = s.readReg r := rfl
@[simp] theorem faultHere_readByte (s : State) (k : FaultKind) (x : Addr) : (s.faultHere k).readByte x = s.readByte x := rfl

@[simp] theorem countTick_regs (s : State) : (s.countTick).regs = s.regs := rfl
@[simp] theorem countTick_pc (s : State) : (s.countTick).pc = s.pc := rfl
@[simp] theorem countTick_flag (s : State) : (s.countTick).flag = s.flag := rfl
@[simp] theorem countTick_callStack (s : State) : (s.countTick).callStack = s.callStack := rfl
@[simp] theorem countTick_tick (s : State) : (s.countTick).tick = s.tick + 1#32 := rfl
@[simp] theorem countTick_maxTicks (s : State) : (s.countTick).maxTicks = s.maxTicks := rfl
@[simp] theorem countTick_stdin (s : State) : (s.countTick).stdin = s.stdin := rfl
@[simp] theorem countTick_inputPtr (s : State) : (s.countTick).inputPtr = s.inputPtr := rfl
@[simp] theorem countTick_outputStream (s : State) : (s.countTick).outputStream = s.outputStream := rfl
@[simp] theorem countTick_status (s : State) : (s.countTick).status = s.status := rfl
@[simp] theorem countTick_breakpoints (s : State) : (s.countTick).breakpoints = s.breakpoints := rfl
@[simp] theorem countTick_memory (s : State) : (s.countTick).memory = s.memory := rfl
@[simp] theorem countTick_memoryUsed (s : State) : (s.countTick).memoryUsed = s.memoryUsed := rfl
@[simp] theorem countTick_readReg (s : State) (r : RegIdx) : (s.countTick).readReg r = s.readReg r := rfl
@[simp] theorem countTick_readByte (s : State) (x : Addr) : (s.countTick).readByte x = s.readByte x := rfl

@[simp] theorem finishWith_regs (s : State) (d : RegIdx) (v : Byte) : (s.finishWith d v).regs = s.regs.set d.toNat v d.isLt := rfl
@[simp] theorem finishWith_pc (s : State) (d : RegIdx) (v : Byte) : (s.finishWith d v).pc = s.nextPc := rfl
@[simp] theorem finishWith_flag (s : State) (d : RegIdx) (v : Byte) : (s.finishWith d v).flag = s.flag := rfl
@[simp] theorem finishWith_callStack (s : State) (d : RegIdx) (v : Byte) : (s.finishWith d v).callStack = s.callStack := rfl
@[simp] theorem finishWith_tick (s : State) (d : RegIdx) (v : Byte) : (s.finishWith d v).tick = s.tick := rfl
@[simp] theorem finishWith_maxTicks (s : State) (d : RegIdx) (v : Byte) : (s.finishWith d v).maxTicks = s.maxTicks := rfl
@[simp] theorem finishWith_stdin (s : State) (d : RegIdx) (v : Byte) : (s.finishWith d v).stdin = s.stdin := rfl
@[simp] theorem finishWith_inputPtr (s : State) (d : RegIdx) (v : Byte) : (s.finishWith d v).inputPtr = s.inputPtr := rfl
@[simp] theorem finishWith_outputStream (s : State) (d : RegIdx) (v : Byte) : (s.finishWith d v).outputStream = s.outputStream := rfl
@[simp] theorem finishWith_status (s : State) (d : RegIdx) (v : Byte) : (s.finishWith d v).status = s.status := rfl
@[simp] theorem finishWith_breakpoints (s : State) (d : RegIdx) (v : Byte) : (s.finishWith d v).breakpoints = s.breakpoints := rfl
@[simp] theorem finishWith_memory (s : State) (d : RegIdx) (v : Byte) : (s.finishWith d v).memory = s.memory := rfl
@[simp] theorem finishWith_memoryUsed (s : State) (d : RegIdx) (v : Byte) : (s.finishWith d v).memoryUsed = s.memoryUsed := rfl
@[simp] theorem finishWith_readByte (s : State) (d : RegIdx) (v : Byte) (x : Addr) : (s.finishWith d v).readByte x = s.readByte x := rfl

@[simp] theorem resetRegisters_regs (s : State) : (s.resetRegisters).regs = Vector.replicate 16 0x00#8 := rfl
@[simp] theorem resetRegisters_pc (s : State) : (s.resetRegisters).pc = 0x000#12 := rfl
@[simp] theorem resetRegisters_flag (s : State) : (s.resetRegisters).flag = false := rfl
@[simp] theorem resetRegisters_callStack (s : State) : (s.resetRegisters).callStack = [] := rfl
@[simp] theorem resetRegisters_tick (s : State) : (s.resetRegisters).tick = 0#32 := rfl
@[simp] theorem resetRegisters_maxTicks (s : State) : (s.resetRegisters).maxTicks = s.maxTicks := rfl
@[simp] theorem resetRegisters_stdin (s : State) : (s.resetRegisters).stdin = s.stdin := rfl
@[simp] theorem resetRegisters_inputPtr (s : State) : (s.resetRegisters).inputPtr = 0 := rfl
@[simp] theorem resetRegisters_outputStream (s : State) : (s.resetRegisters).outputStream = [] := rfl
@[simp] theorem resetRegisters_status (s : State) : (s.resetRegisters).status = .running := rfl
@[simp] theorem resetRegisters_breakpoints (s : State) : (s.resetRegisters).breakpoints = s.breakpoints := rfl
@[simp] theorem resetRegisters_memory (s : State) : (s.resetRegisters).memory = s.memory := rfl
@[simp] theorem resetRegisters_memoryUsed (s : State) : (s.resetRegisters).memoryUsed = s.memoryUsed := rfl
@[simp] theorem resetRegisters_readByte (s : State) (x : Addr) : (s.resetRegisters).readByte x = s.readByte x := rfl

@[simp] theorem withPayload_regs (s : State) (p : List Byte) : (s.withPayload p).regs = Vector.replicate 16 0x00#8 := rfl
@[simp] theorem withPayload_pc (s : State) (p : List Byte) : (s.withPayload p).pc = 0x000#12 := rfl
@[simp] theorem withPayload_flag (s : State) (p : List Byte) : (s.withPayload p).flag = false := rfl
@[simp] theorem withPayload_callStack (s : State) (p : List Byte) : (s.withPayload p).callStack = [] := rfl
@[simp] theorem withPayload_tick (s : State) (p : List Byte) : (s.withPayload p).tick = 0#32 := rfl
@[simp] theorem withPayload_maxTicks (s : State) (p : List Byte) : (s.withPayload p).maxTicks = s.maxTicks := rfl
@[simp] theorem withPayload_stdin (s : State) (p : List Byte) : (s.withPayload p).stdin = s.stdin := rfl
@[simp] theorem withPayload_inputPtr (s : State) (p : List Byte) : (s.withPayload p).inputPtr = 0 := rfl
@[simp] theorem withPayload_outputStream (s : State) (p : List Byte) : (s.withPayload p).outputStream = [] := rfl
@[simp] theorem withPayload_status (s : State) (p : List Byte) : (s.withPayload p).status = .running := rfl
@[simp] theorem withPayload_breakpoints (s : State) (p : List Byte) : (s.withPayload p).breakpoints = 0#4096 := rfl
@[simp] theorem withPayload_memory (s : State) (p : List Byte) : (s.withPayload p).memory = Memory.ofBytes p := rfl
@[simp] theorem withPayload_memoryUsed (s : State) (p : List Byte) : (s.withPayload p).memoryUsed = p.length := rfl

end Sys2Proof.Machine.State
end

