-- ==== Sys2Proof/Laws/Ops.lean ====
section
/-! SUPPORT. What each shared operation does, said once: registers, memory through the state, call stack, streams, the
effective address, and the breakpoints. -/

namespace Sys2Proof.Machine.State

/-! ## Registers and memory -/

/-- A register read after a register write (R8, R20). -/
theorem readReg_writeReg (s : State) (d r : RegIdx) (v : Byte) :
    (s.writeReg d v).readReg r = if r = d then v else s.readReg r := by
  simp only [readReg, writeReg, Vector.getElem_set, ← BitVec.toNat_inj, eq_comm]

@[simp] theorem readReg_writeReg_same (s : State) (d : RegIdx) (v : Byte) : (s.writeReg d v).readReg d = v := by
  rw [readReg_writeReg, if_pos rfl]

@[simp] theorem readReg_writeReg_of_ne (s : State) {d r : RegIdx} (h : r ≠ d) (v : Byte) :
    (s.writeReg d v).readReg r = s.readReg r := by
  rw [readReg_writeReg, if_neg h]

/-- The write of a destination register, read back. -/
theorem readReg_finishWith (s : State) (d r : RegIdx) (v : Byte) :
    (s.finishWith d v).readReg r = if r = d then v else s.readReg r := readReg_writeReg s.advance d r v

/-- Every register reads 0x00 after a reset of the registers (R302). -/
@[simp] theorem readReg_resetRegisters (s : State) (r : RegIdx) : s.resetRegisters.readReg r = 0x00#8 := by
  simp [readReg, resetRegisters]

/-- A byte read after a byte write (R52, R58). -/
theorem readByte_writeByte (s : State) (a x : Addr) (v : Byte) :
    (s.writeByte a v).readByte x = if x = a then v else s.readByte x := by
  simp only [readByte, writeByte_memory, Memory.read_write, BitVec.toNat_inj]

@[simp] theorem readByte_writeByte_same (s : State) (a : Addr) (v : Byte) : (s.writeByte a v).readByte a = v := by
  rw [readByte_writeByte, if_pos rfl]

/-- Memory stays canonical under a store (R50). -/
theorem writeByte_wf {s : State} (h : s.memory.wf) (a : Addr) (v : Byte) : (s.writeByte a v).memory.wf :=
  Memory.write_wf h (show a.toNat < Config.memSize from a.isLt) v

/-! ## The call stack and the streams -/

/-- What a push that succeeds does, and when it succeeds (R27). -/
theorem push_eq_some {s t : State} {v : Addr} :
    s.push v = some t ↔ s.depth < Config.callDepth ∧ t = { s with callStack := s.callStack ++ [v] } := by
  unfold push
  split_ifs with h <;> simp [h, eq_comm]

theorem push_eq_none {s : State} {v : Addr} : s.push v = none ↔ Config.callDepth ≤ s.depth := by
  unfold push
  split_ifs with h <;> simp <;> omega

/-- What a pop that succeeds does, and when it succeeds (R27). -/
theorem pop_eq_some {s t : State} {v : Addr} :
    s.pop = some (v, t) ↔ ∃ below, s.callStack = below ++ [v] ∧ t = { s with callStack := below } := by
  unfold pop
  rcases List.eq_nil_or_concat s.callStack with h | ⟨below, top, h⟩
  · simp [h]
  · simp only [h, List.concat_eq_append, List.getLast?_append, List.getLast?_singleton, Option.some_or,
      List.dropLast_concat, Option.some.injEq, Prod.mk.injEq]
    constructor
    · rintro ⟨rfl, rfl⟩; exact ⟨below, rfl, rfl⟩
    · rintro ⟨b, hb, rfl⟩
      have := List.append_inj' hb rfl
      simp_all

theorem pop_eq_none {s : State} : s.pop = none ↔ s.callStack = [] := by
  unfold pop
  rcases List.eq_nil_or_concat s.callStack with h | ⟨below, top, h⟩ <;> simp [h]

/-- What reading an input byte does, and when there is one (R180). -/
theorem takeInput_eq_some {s t : State} {b : Byte} :
    s.takeInput = some (b, t) ↔ s.stdin[s.inputPtr]? = some b ∧ t = { s with inputPtr := s.inputPtr + 1 } := by
  unfold takeInput
  cases h : s.stdin[s.inputPtr]? <;> simp [eq_comm]

theorem takeInput_eq_none {s : State} : s.takeInput = none ↔ s.stdin.length ≤ s.inputPtr := by
  unfold takeInput
  cases h : s.stdin[s.inputPtr]? with
  | none => simpa using h
  | some b => simpa using (List.getElem?_eq_some_iff.mp h).1

/-- What writing an output byte does, and when there is room (R181). -/
theorem putOutput_eq_some {s t : State} {b : Byte} :
    s.putOutput b = some t ↔
      s.outputStream.length < Config.outMax ∧ t = { s with outputStream := s.outputStream ++ [b] } := by
  unfold putOutput
  split_ifs with h
  · simp; intro h'; omega
  · simp only [Option.some.injEq, eq_comm]; constructor
    · intro h'; exact ⟨by omega, h'⟩
    · exact And.right

theorem putOutput_eq_none {s : State} {b : Byte} : s.putOutput b = none ↔ Config.outMax ≤ s.outputStream.length := by
  unfold putOutput
  split_ifs with h
  · simp; omega
  · simp; omega

/-! ## Addresses, status, breakpoints -/

/-- The effective address as a number (R151, R152). -/
theorem pointer_toNat (s : State) :
    s.pointer.toNat = (s.readReg 1#4).toNat % 16 * 256 + (s.readReg 0#4).toNat := by
  simp only [pointer, pointerHigh, pointerLow, BitVec.toNat_append, BitVec.extractLsb'_toNat]
  rw [← Nat.shiftLeft_add_eq_or_of_lt (BitVec.isLt _)]
  simp [Nat.shiftLeft_eq]

/-- The advanced `pc` as a number (R23). -/
theorem nextPc_toNat (s : State) : s.nextPc.toNat = (s.pc.toNat + 2) % 4096 := by
  simp [nextPc, BitVec.toNat_add]

theorem isRunning_iff {s : State} : s.isRunning = true ↔ s.status = .running := by simp [isRunning]

theorem budgetSpent_iff {s : State} : s.budgetSpent = true ↔ s.tick.toNat + 1 > s.maxTicks.toNat := by
  simp [budgetSpent]

/-- A counted tick does not overflow where the budget is not spent (R28). -/
theorem countTick_toNat {s : State} (h : s.tick.toNat + 1 ≤ s.maxTicks.toNat) :
    (s.countTick).tick.toNat = s.tick.toNat + 1 := by
  have := s.maxTicks.isLt
  rw [countTick_tick, BitVec.toNat_add, BitVec.toNat_ofNat, Nat.mod_eq_of_lt (by omega)]

/-- A breakpoint read after each command on breakpoints (R247). -/
theorem breakpointAt_setBp (s : State) (a b : Addr) :
    (s.setBp a).breakpointAt b = (decide (b = a) || s.breakpointAt b) := by
  have hb : b.toNat < 4096 := b.isLt
  have ha : a.toNat < 4096 := a.isLt
  simp [breakpointAt, setBp, BitVec.getLsbD_or, BitVec.getLsbD_twoPow, ← BitVec.toNat_inj, Bool.or_comm, eq_comm, ha]

theorem breakpointAt_clearBp (s : State) (a b : Addr) :
    (s.clearBp a).breakpointAt b = (!decide (b = a) && s.breakpointAt b) := by
  have hb : b.toNat < 4096 := b.isLt
  simp [breakpointAt, clearBp, ← BitVec.toNat_inj, Bool.and_comm, eq_comm, hb]

theorem breakpointAt_toggleBp (s : State) (a b : Addr) :
    (s.toggleBp a).breakpointAt b = if b = a then !s.breakpointAt b else s.breakpointAt b := by
  have hb : b.toNat < 4096 := b.isLt
  have ha : a.toNat < 4096 := a.isLt
  by_cases h : b = a
  · subst h; simp [breakpointAt, toggleBp, ha]
  · have : a.toNat ≠ b.toNat := fun e => h (BitVec.toNat_inj.mp e.symm)
    simp [breakpointAt, toggleBp, BitVec.getLsbD_twoPow, ha, h, this]

end Sys2Proof.Machine.State
end

