-- ==== Sys2Proof/Laws/Exec.lean ====
section
/-! SUPPORT. What each instruction does, one equation per instruction and case, for the provers to cite instead of unfolding
the meanings; and that every instruction answers a next state. -/

namespace Sys2Proof.Machine

@[simp] theorem exec_stopp (s : State) : exec .stopp s = .next s.halt := rfl
@[simp] theorem exec_nope (s : State) : exec .nope s = .next s.advance := rfl
@[simp] theorem exec_settImm (d : RegIdx) (v : Byte) (s : State) :
    exec (.settImm d v) s = .next (s.finishWith d v) := rfl
@[simp] theorem exec_settReg (d r : RegIdx) (s : State) :
    exec (.settReg d r) s = .next (s.finishWith d (s.readReg r)) := rfl
@[simp] theorem exec_finn (a : Addr) (s : State) :
    exec (.finn a) s = .next ((s.finishWith 1#4 (addrHigh a)).writeReg 0#4 (addrLow a)) := rfl
@[simp] theorem exec_last (d : RegIdx) (s : State) :
    exec (.last d) s = .next (s.finishWith d (s.readByte s.pointer)) := rfl
@[simp] theorem exec_lagr (r : RegIdx) (s : State) :
    exec (.lagr r) s = .next (s.advance.writeByte s.pointer (s.readReg r)) := rfl

@[simp] theorem exec_og (d r : RegIdx) (s : State) :
    exec (.og d r) s = .next (s.finishWith d (s.readReg d &&& s.readReg r)) := rfl
@[simp] theorem exec_eller (d r : RegIdx) (s : State) :
    exec (.eller d r) s = .next (s.finishWith d (s.readReg d ||| s.readReg r)) := rfl
@[simp] theorem exec_xeller (d r : RegIdx) (s : State) :
    exec (.xeller d r) s = .next (s.finishWith d (s.readReg d ^^^ s.readReg r)) := rfl
@[simp] theorem exec_vskift (d r : RegIdx) (s : State) :
    exec (.vskift d r) s = .next (s.finishWith d (shiftLeft (s.readReg d) (s.readReg r))) := rfl
@[simp] theorem exec_hskift (d r : RegIdx) (s : State) :
    exec (.hskift d r) s = .next (s.finishWith d (shiftRight (s.readReg d) (s.readReg r))) := rfl
@[simp] theorem exec_pluss (d r : RegIdx) (s : State) :
    exec (.pluss d r) s = .next (s.finishWith d (s.readReg d + s.readReg r)) := rfl
@[simp] theorem exec_minus (d r : RegIdx) (s : State) :
    exec (.minus d r) s = .next (s.finishWith d (s.readReg d - s.readReg r)) := rfl

@[simp] theorem exec_lik (x y : RegIdx) (s : State) :
    exec (.lik x y) s = .next (s.advance.setFlag (relEq (s.readReg x) (s.readReg y))) := rfl
@[simp] theorem exec_ulik (x y : RegIdx) (s : State) :
    exec (.ulik x y) s = .next (s.advance.setFlag (relNe (s.readReg x) (s.readReg y))) := rfl
@[simp] theorem exec_me (x y : RegIdx) (s : State) :
    exec (.me x y) s = .next (s.advance.setFlag (relLt (s.readReg x) (s.readReg y))) := rfl
@[simp] theorem exec_mel (x y : RegIdx) (s : State) :
    exec (.mel x y) s = .next (s.advance.setFlag (relLe (s.readReg x) (s.readReg y))) := rfl
@[simp] theorem exec_se (x y : RegIdx) (s : State) :
    exec (.se x y) s = .next (s.advance.setFlag (relGt (s.readReg x) (s.readReg y))) := rfl
@[simp] theorem exec_sel (x y : RegIdx) (s : State) :
    exec (.sel x y) s = .next (s.advance.setFlag (relGe (s.readReg x) (s.readReg y))) := rfl

@[simp] theorem exec_hopp (a : Addr) (s : State) : exec (.hopp a) s = .next (s.advance.setPc a) := rfl
@[simp] theorem exec_bhopp (a : Addr) (s : State) :
    exec (.bhopp a) s = .next (if s.flag then s.advance.setPc a else s.advance) := rfl

/-- LES, both cases (R180). -/
theorem exec_les (d : RegIdx) (s : State) :
    exec (.les d) s = .next (match s.stdin[s.inputPtr]? with
      | some b => ({ s with inputPtr := s.inputPtr + 1 } : State).finishWith d b
      | none => s.faultHere .readAfterEndOfInput) := by
  show execLes d s = _
  unfold execLes State.takeInput
  cases s.stdin[s.inputPtr]? <;> rfl

/-- SKRIV, both cases (R181). -/
theorem exec_skriv (r : RegIdx) (s : State) :
    exec (.skriv r) s = .next (if s.outputStream.length < Config.outMax
      then ({ s with outputStream := s.outputStream ++ [s.readReg r] } : State).advance
      else s.faultHere .segmentationFault) := by
  show execSkriv r s = _
  unfold execSkriv State.putOutput
  split_ifs with h h' h' <;> first | rfl | omega

/-- TUR, both cases (R202). -/
theorem exec_tur (a : Addr) (s : State) :
    exec (.tur a) s = .next (if s.depth < Config.callDepth
      then ({ s with callStack := s.callStack ++ [s.nextPc] } : State).setPc a
      else s.faultHere .recursionLimitExceeded) := by
  show execTur a s = _
  unfold execTur State.push
  split_ifs <;> rfl

/-- RETUR, both cases (R203). -/
theorem exec_retur (s : State) :
    exec .retur s = .next (match s.callStack.getLast? with
      | some ra => ({ s with callStack := s.callStack.dropLast } : State).setPc ra
      | none => (s.setPc 0x000#12).raise .segmentationFault s.pc) := by
  show execRetur s = _
  unfold execRetur State.pop
  cases s.callStack.getLast? <;> rfl

/-- Every instruction answers a next state: none is refused and none ends in a fault outside the state. -/
theorem exec_answers (i : Instr) (s : State) : ∃ t, exec i s = .next t := by
  cases i with
  | les d => exact ⟨_, exec_les d s⟩
  | skriv r => exact ⟨_, exec_skriv r s⟩
  | tur a => exact ⟨_, exec_tur a s⟩
  | retur => exact ⟨_, exec_retur s⟩
  | _ => exact ⟨_, rfl⟩

end Sys2Proof.Machine
end

