-- ==== Sys2Proof/Laws/Step.lean ====
section
/-! SUPPORT. What one step can do, said once, and how runs of steps unfold. -/

namespace Sys2Proof.Machine

/-- A core that is not running does nothing (R110). -/
theorem step_of_not_running {s : State} (h : s.status ≠ .running) : step s = .next s := by
  simp [step, cycle, State.isRunning, h]

/-- A refused cycle (R111). -/
theorem step_of_spent {s : State} (h : s.status = .running) (hb : s.tick.toNat + 1 > s.maxTicks.toNat) :
    step s = .next s.refuseCycle := by
  simp only [step, cycle, State.isRunning_iff.mpr h, State.budgetSpent_iff.mpr hb, if_true]

/-- A cycle that runs (R112, R113, R114). -/
theorem step_of_canCycle {s : State} (h : s.canCycle) : step s = fetchExecute s.countTick := by
  have hb : s.budgetSpent = false := by
    rw [← Bool.not_eq_true, State.budgetSpent_iff]; omega
  simp only [step, cycle, State.isRunning_iff.mpr h.1, hb, if_true, Bool.false_eq_true, if_false]

/-- The fetched word does not depend on the tick. -/
@[simp] theorem fetchWord_countTick (s : State) : s.countTick.fetchWord = s.fetchWord := rfl

/-- What one step can do. -/
theorem step_cases {s t : State} (h : step s = .next t) :
    (s.status ≠ .running ∧ t = s) ∨
    (s.status = .running ∧ s.tick.toNat + 1 > s.maxTicks.toNat ∧ t = s.refuseCycle) ∨
    (s.canCycle ∧ ∃ reason, classify s.fetchWord = .error reason ∧ t = s.countTick.illegalWord) ∨
    (s.canCycle ∧ ∃ i, classify s.fetchWord = .ok i ∧ exec i s.countTick = .next t) := by
  by_cases hr : s.status = .running
  · by_cases hb : s.tick.toNat + 1 > s.maxTicks.toNat
    · rw [step_of_spent hr hb] at h
      cases h
      exact .inr (.inl ⟨hr, hb, rfl⟩)
    · have hc : s.canCycle := ⟨hr, by omega⟩
      rw [step_of_canCycle hc, fetchExecute, fetchWord_countTick] at h
      cases hw : classify s.fetchWord with
      | error reason =>
        simp only [hw] at h
        cases h
        exact .inr (.inr (.inl ⟨hc, reason, rfl, rfl⟩))
      | ok i =>
        simp only [hw] at h
        exact .inr (.inr (.inr ⟨hc, i, rfl, h⟩))
  · rw [step_of_not_running hr] at h
    cases h
    exact .inl ⟨hr, rfl⟩

/-- Every step answers a next state. -/
theorem step_answers (s : State) : ∃ t, step s = .next t := by
  by_cases hr : s.status = .running
  · by_cases hb : s.tick.toNat + 1 > s.maxTicks.toNat
    · exact ⟨_, step_of_spent hr hb⟩
    · rw [step_of_canCycle ⟨hr, by omega⟩, fetchExecute]
      cases classify s.countTick.fetchWord with
      | error reason => exact ⟨_, rfl⟩
      | ok i => exact exec_answers i s.countTick
  · exact ⟨_, step_of_not_running hr⟩

@[simp] theorem runSteps_zero (s : State) : runSteps 0 s = .next s := rfl

/-- A run is its first step and the run after it. -/
theorem runSteps_succ {s t : State} (n : Nat) (h : step s = .next t) : runSteps (n + 1) s = runSteps n t := by
  have h' : Host.Core.step core s = .next t := h
  simp only [runSteps, Host.Core.run, h']
  rfl

/-- Every run answers a next state. -/
theorem runSteps_answers (n : Nat) (s : State) : ∃ t, runSteps n s = .next t := by
  induction n generalizing s with
  | zero => exact ⟨s, rfl⟩
  | succ n ih =>
    obtain ⟨t, ht⟩ := step_answers s
    rw [runSteps_succ n ht]
    exact ih t

/-- What holds at the start of a run and is kept by every step holds at its end. -/
theorem runSteps_induction {P : State → Prop} (hstep : ∀ s t, P s → step s = .next t → P t) {n : Nat} {s t : State}
    (hs : P s) (h : runSteps n s = .next t) : P t := by
  induction n generalizing s with
  | zero => cases h; exact hs
  | succ n ih =>
    obtain ⟨u, hu⟩ := step_answers s
    rw [runSteps_succ n hu] at h
    exact ih (hstep s u hs hu) h

end Sys2Proof.Machine
end

