-- ==== Sys2Proof/Laws/Commands.lean ====
section
/-! SUPPORT. What the loop of `run` and `step` does with one cycle, and what an outcome says of the state
(spec/49_host_interface.md R243, R244, R246). -/

namespace Sys2Proof.Machine

/-- The outcome of a cycle is the one its state names. -/
theorem cycleOutcome_matches (t : State) (notified : List Addr) : OutcomeMatchesState ⟨t, cycleOutcome t, notified⟩ := by
  unfold OutcomeMatchesState cycleOutcome
  cases h : t.status with
  | running => by_cases hb : t.breakpointAt t.pc = true <;> simp [Status.outcome, hb]
  | halted => simp [Status.outcome]
  | faulted kind a => simp [Status.outcome]

/-- A loop goes on after a cycle that stops nothing. -/
theorem runLoop_of_continuing {n : Nat} {s t : State} {rep : RunReport} (hs : step s = .next t)
    (ho : cycleOutcome t = .continuing) (hr : runLoop n t = .next rep) :
    runLoop (n + 1) s = .next (rep.notify (stepCompleted s t)) := by
  have hc : cycle s = .next t := hs
  simp only [runLoop, hc, ho, hr]

/-- A loop ends at a cycle that stops it. -/
theorem runLoop_of_stop {n : Nat} {s t : State} (hs : step s = .next t) (ho : cycleOutcome t ≠ .continuing) :
    runLoop (n + 1) s = .next ⟨t, cycleOutcome t, (stepCompleted s t).toList⟩ := by
  have hc : cycle s = .next t := hs
  simp only [runLoop, hc]

/-- A `step` of a running core is the loop. -/
theorem stepCommand_of_running {s : State} (h : s.status = .running) :
    (∀ n, s.stepCommand (.count n) = runLoop n s) ∧ s.stepCommand .unbounded = runLoop s.cyclesLeft s := by
  simp [State.stepCommand, h, Status.outcome]

/-- A cycle that is not refused notifies of the new `pc` (R118). -/
theorem stepCompleted_of_canCycle {s : State} (t : State) (h : s.canCycle) : stepCompleted s t = some t.pc := by
  have hb : s.budgetSpent = false := by
    rw [← Bool.not_eq_true, State.budgetSpent_iff]; have := h.2; omega
  simp [stepCompleted, State.isRunning_iff.mpr h.1, hb]

/-- A refused cycle notifies of nothing (R118). -/
theorem stepCompleted_of_spent {s : State} (t : State) (h : s.tick.toNat + 1 > s.maxTicks.toNat) :
    stepCompleted s t = none := by
  simp [stepCompleted, State.budgetSpent_iff.mpr h]

@[simp] theorem hexText_length (k n : Nat) : (hexText k n).length = k := by
  induction k generalizing n with
  | zero => rfl
  | succ k ih => simp [hexText, ih]

/-- Two digits for each byte of the output (R249). -/
theorem readOutputHex_length (s : State) : s.readOutputHex.length = 2 * s.outputStream.length := by
  simp [State.readOutputHex, State.readOutput, hexBytes, List.length_flatMap, Nat.mul_comm]

end Sys2Proof.Machine
end

