-- ==== Sys2Proof/Laws/PerInstr.lean ====
section
/-! SUPPORT. The statements made per instruction: family ClassOfEncoding, the class nibble of an instruction's canonical
word is the class of its row in the class map (spec/30_encoding.md R77, R84). -/

namespace Sys2Proof.Laws.ClassOfEncoding

/-- The class of each instruction (R77). -/
def opClass : Instr → Nibble
  | .stopp => 0x0#4
  | .settImm _ _ => 0x1#4
  | .settReg _ _ => 0x2#4
  | .finn _ => 0x3#4
  | .last _ | .lagr _ => 0x4#4
  | .og _ _ | .eller _ _ | .xeller _ _ | .vskift _ _ | .hskift _ _ | .pluss _ _ | .minus _ _ => 0x5#4
  | .les _ | .skriv _ => 0x6#4
  | .lik _ _ | .ulik _ _ | .me _ _ | .mel _ _ | .se _ _ | .sel _ _ => 0x7#4
  | .hopp _ => 0x8#4
  | .bhopp _ => 0x9#4
  | .tur _ => 0xA#4
  | .retur => 0xB#4
  | .nope => 0xC#4

def Statement (i : Instr) : Prop := (decodeFields (encode i)).operationClass = opClass i

theorem stopp : Statement .stopp := (fields_of_address 0#12 0x0#4).1
theorem settImm (d : RegIdx) (imm : Byte) : Statement (.settImm d imm) := (fields_of_immediate imm d 0x1#4).1
theorem settReg (d r : RegIdx) : Statement (.settReg d r) := (fields_of_nibbles 0#4 r d 0x2#4).1
theorem finn (a : Addr) : Statement (.finn a) := (fields_of_address a 0x3#4).1
theorem last (d : RegIdx) : Statement (.last d) := (fields_of_nibbles 0#4 d 0#4 0x4#4).1
theorem lagr (r : RegIdx) : Statement (.lagr r) := (fields_of_nibbles 0#4 r 1#4 0x4#4).1
theorem og (d r : RegIdx) : Statement (.og d r) := (fields_of_nibbles r d 0#4 0x5#4).1
theorem eller (d r : RegIdx) : Statement (.eller d r) := (fields_of_nibbles r d 1#4 0x5#4).1
theorem xeller (d r : RegIdx) : Statement (.xeller d r) := (fields_of_nibbles r d 2#4 0x5#4).1
theorem vskift (d r : RegIdx) : Statement (.vskift d r) := (fields_of_nibbles r d 3#4 0x5#4).1
theorem hskift (d r : RegIdx) : Statement (.hskift d r) := (fields_of_nibbles r d 4#4 0x5#4).1
theorem pluss (d r : RegIdx) : Statement (.pluss d r) := (fields_of_nibbles r d 5#4 0x5#4).1
theorem minus (d r : RegIdx) : Statement (.minus d r) := (fields_of_nibbles r d 6#4 0x5#4).1
theorem les (d : RegIdx) : Statement (.les d) := (fields_of_nibbles 0#4 d 0#4 0x6#4).1
theorem skriv (r : RegIdx) : Statement (.skriv r) := (fields_of_nibbles 0#4 r 1#4 0x6#4).1
theorem lik (x y : RegIdx) : Statement (.lik x y) := (fields_of_nibbles y x 0#4 0x7#4).1
theorem ulik (x y : RegIdx) : Statement (.ulik x y) := (fields_of_nibbles y x 1#4 0x7#4).1
theorem me (x y : RegIdx) : Statement (.me x y) := (fields_of_nibbles y x 2#4 0x7#4).1
theorem mel (x y : RegIdx) : Statement (.mel x y) := (fields_of_nibbles y x 3#4 0x7#4).1
theorem se (x y : RegIdx) : Statement (.se x y) := (fields_of_nibbles y x 4#4 0x7#4).1
theorem sel (x y : RegIdx) : Statement (.sel x y) := (fields_of_nibbles y x 5#4 0x7#4).1
theorem hopp (a : Addr) : Statement (.hopp a) := (fields_of_address a 0x8#4).1
theorem bhopp (a : Addr) : Statement (.bhopp a) := (fields_of_address a 0x9#4).1
theorem tur (a : Addr) : Statement (.tur a) := (fields_of_address a 0xA#4).1
theorem retur : Statement .retur := (fields_of_address 0#12 0xB#4).1
theorem nope : Statement .nope := (fields_of_address 0#12 0xC#4).1

end Sys2Proof.Laws.ClassOfEncoding
end

