-- ==== Sys2Proof/Tests/Slice0.lean ====
section
/-! SUPPORT. The model's own tests: ill-formed written instructions that the checks refuse, words of the spec's encodings
(spec/95_test_vectors.md, ids K, E), one-step vectors of the same file (ids M, A, C, J, I, L), and for every statement with
hypotheses a witness that meets them. -/

namespace Sys2Proof.Tests

open Sys2Proof Sys2Proof.Machine

/-! ## Helpers -/

/-- One field of what an operation answers next; none after a fault or a refusal. -/
def seen {σ α : Type} (o : Host.Outcome σ Fault Refusal) (f : σ → α) : Option α :=
  match o with
  | .next t => some (f t)
  | .fault _ => none
  | .refused _ => none

theorem answers_of_seen {σ α : Type} {o : Host.Outcome σ Fault Refusal} {f : σ → α} {x : α} (h : seen o f = some x) :
    ∃ t, o = .next t ∧ f t = x := by
  cases o with
  | next t => exact ⟨t, rfl, Option.some.inj h⟩
  | fault _ => cases h
  | refused _ => cases h

/-- A running state with these bytes in memory from address 0, as after a load. -/
def loaded (bytes : List Byte) : State :=
  { State.reset with memory := Memory.ofBytes bytes, memoryUsed := bytes.length }

/-- A state in which `r2` and `r3` hold these values. -/
def pair (x y : Byte) : State := (State.reset.writeReg 2#4 x).writeReg 3#4 y

/-- A state whose call stack holds `n` entries. -/
def deep (n : Nat) : State := { State.reset with callStack := List.replicate n 0x002#12, pc := 0x040#12 }

/-- A state whose output holds `n` bytes. -/
def wrote (n : Nat) : State := { State.reset with outputStream := List.replicate n 0x00#8 }

/-- A state with the program P4's input (95_test_vectors.md). -/
def reading (cursor : Nat) : State := { State.reset with stdin := [0xAA#8, 0x0F#8], inputPtr := cursor }

/-! ## The checks of WellFormed refuse ill-formed terms (R84, R87, R90, R92) -/

theorem test_wf_none_with_operand : SourceInstr.wf ⟨.stopp, [.reg 0]⟩ = false := by decide
theorem test_wf_sett_one_operand : SourceInstr.wf ⟨.sett, [.reg 0]⟩ = false := by decide
theorem test_wf_sett_destination_16 : SourceInstr.wf ⟨.sett, [.reg 16, .num 0]⟩ = false := by decide
theorem test_wf_sett_source_16 : SourceInstr.wf ⟨.sett, [.reg 0, .reg 16]⟩ = false := by decide
theorem test_wf_sett_immediate_256 : SourceInstr.wf ⟨.sett, [.reg 15, .num 256]⟩ = false := by decide
theorem test_wf_sett_number_as_destination : SourceInstr.wf ⟨.sett, [.num 0, .num 5]⟩ = false := by decide
theorem test_wf_address_4096 : SourceInstr.wf ⟨.hopp, [.num 4096]⟩ = false := by decide
theorem test_wf_address_register : SourceInstr.wf ⟨.finn, [.reg 0]⟩ = false := by decide
theorem test_wf_address_label_unresolved : SourceInstr.wf ⟨.tur, [.label "here".toList]⟩ = false := by decide
theorem test_wf_one_register_16 : SourceInstr.wf ⟨.les, [.reg 16]⟩ = false := by decide
theorem test_wf_one_register_number : SourceInstr.wf ⟨.skriv, [.num 1]⟩ = false := by decide
theorem test_wf_two_registers_one_operand : SourceInstr.wf ⟨.pluss, [.reg 0]⟩ = false := by decide
theorem test_wf_two_registers_16 : SourceInstr.wf ⟨.minus, [.reg 0, .reg 16]⟩ = false := by decide
theorem test_wf_two_registers_number : SourceInstr.wf ⟨.lik, [.reg 0, .num 1]⟩ = false := by decide
theorem test_wf_top_values :
    SourceInstr.wf ⟨.sett, [.reg 15, .num 255]⟩ = true ∧ SourceInstr.wf ⟨.hopp, [.num 4095]⟩ = true := by decide
theorem test_ill_formed_has_no_word : SourceInstr.toInstr? ⟨.sett, [.reg 0, .num 256]⟩ = none := by decide

/-! ## Words of the spec's encodings (K1 to K32, E10 to E28), one or two per constructor -/

theorem test_decode_stopp_K1_K2 : classify 0x0000#16 = .ok .stopp ∧ classify 0xFFF0#16 = .ok .stopp := by decide
theorem test_decode_settImm_K3_K4 :
    classify 0x0501#16 = .ok (.settImm 0#4 0x05#8) ∧ classify 0xFFF1#16 = .ok (.settImm 15#4 0xFF#8) := by decide
theorem test_decode_settReg_K5_K6 :
    classify 0x0312#16 = .ok (.settReg 1#4 3#4) ∧ classify 0xA312#16 = .ok (.settReg 1#4 3#4) := by decide
theorem test_decode_finn_K7_E6 :
    classify 0x0183#16 = .ok (.finn 0x018#12) ∧ classify 0x1003#16 = .ok (.finn 0x100#12) := by decide
theorem test_decode_last_K9 : classify 0x0204#16 = .ok (.last 2#4) := by decide
theorem test_decode_lagr_K10 : classify 0x0214#16 = .ok (.lagr 2#4) := by decide
theorem test_decode_og_E10 : classify 0x3205#16 = .ok (.og 2#4 3#4) := by decide
theorem test_decode_eller_E11 : classify 0x3215#16 = .ok (.eller 2#4 3#4) := by decide
theorem test_decode_xeller_E12 : classify 0x3225#16 = .ok (.xeller 2#4 3#4) := by decide
theorem test_decode_vskift_E13 : classify 0x3235#16 = .ok (.vskift 2#4 3#4) := by decide
theorem test_decode_hskift_E14 : classify 0x3245#16 = .ok (.hskift 2#4 3#4) := by decide
theorem test_decode_pluss_K12 : classify 0x1055#16 = .ok (.pluss 0#4 1#4) := by decide
theorem test_decode_minus_K13 : classify 0x2165#16 = .ok (.minus 1#4 2#4) := by decide
theorem test_decode_les_K15 : classify 0x0206#16 = .ok (.les 2#4) := by decide
theorem test_decode_skriv_K16 : classify 0x0016#16 = .ok (.skriv 0#4) := by decide
theorem test_decode_lik_K18 : classify 0x4207#16 = .ok (.lik 2#4 4#4) := by decide
theorem test_decode_ulik_E20 : classify 0x3117#16 = .ok (.ulik 1#4 3#4) := by decide
theorem test_decode_me_E21 : classify 0x1027#16 = .ok (.me 0#4 1#4) := by decide
theorem test_decode_mel_E22 : classify 0x1037#16 = .ok (.mel 0#4 1#4) := by decide
theorem test_decode_se_E23 : classify 0x1047#16 = .ok (.se 0#4 1#4) := by decide
theorem test_decode_sel_K19 : classify 0x1057#16 = .ok (.sel 0#4 1#4) := by decide
theorem test_decode_hopp_K21_K32 :
    classify 0x00A8#16 = .ok (.hopp 0x00A#12) ∧ classify 0x6948#16 = .ok (.hopp 0x694#12) := by decide
theorem test_decode_bhopp_K23_K24 :
    classify 0x0089#16 = .ok (.bhopp 0x008#12) ∧ classify 0x0169#16 = .ok (.bhopp 0x016#12) := by decide
theorem test_decode_tur_K25_E28 :
    classify 0x006A#16 = .ok (.tur 0x006#12) ∧ classify 0xFFFA#16 = .ok (.tur 0xFFF#12) := by decide
theorem test_decode_retur_K26_K27 : classify 0x000B#16 = .ok .retur ∧ classify 0xFFFB#16 = .ok .retur := by decide
theorem test_decode_nope_K28_E30 : classify 0x050C#16 = .ok .nope ∧ classify 0x000C#16 = .ok .nope := by decide
theorem test_decode_illegal_K11_K14_K17_K20 :
    classify 0x0024#16 = .error (.unknownSubcode 4#4 2#4) ∧ classify 0x1075#16 = .error (.unknownSubcode 5#4 7#4) ∧
    classify 0x0026#16 = .error (.unknownSubcode 6#4 2#4) ∧ classify 0x1067#16 = .error (.unknownSubcode 7#4 6#4) := by
  decide
theorem test_decode_illegal_K29_K30_K31 :
    classify 0x000D#16 = .error (.unknownClass 0xD#4) ∧ classify 0x532E#16 = .error (.unknownClass 0xE#4) ∧
    classify 0xFFFF#16 = .error (.unknownClass 0xF#4) := by decide
theorem test_fields_K24 :
    decodeFields 0x0169#16 =
      { operationClass := 0x9#4, operation := 0x6#4, address := 0x016#12, value := 0x01#8, argument1 := 1#4,
        argument2 := 0#4 } := by decide
theorem test_bytes_E6_E20 :
    encodeBytes (.finn 0x100#12) = [0x03#8, 0x10#8] ∧ encodeBytes (.ulik 1#4 3#4) = [0x17#8, 0x31#8] := by decide
theorem test_decode_truncated : decodeBytes [0x01#8] = .error .truncated := by decide
theorem test_table_word_K12_K14 :
    decodeTableWord 16 0x1055 = some (.pluss 0#4 1#4) ∧ decodeTableWord 16 0x1075 = none := by decide
theorem test_table_word_short : decodeTableWord 8 0x01 = some (.settImm 0#4 0x00#8) := by decide
theorem test_address_width : Addr = BitVec Config.addrWidth ∧ Byte = BitVec Config.regWidth := ⟨rfl, rfl⟩
theorem test_register_count : 2 ^ 4 = Config.regCount ∧ 2 ^ Config.addrWidth = Config.memSize := by decide

/-! ## One step of each instruction (M, A, C, J, I) -/

theorem test_fetch_word_runs_next : seen (step (State.reset.withFetchWord 16 0x0501)) (·.readReg 0#4) = some 0x05#8 := by
  decide
theorem test_stopp_keeps_pc_ticks_once :
    seen (step State.reset) (fun t => (t.status, t.pc, t.tick)) = some (.halted, 0x000#12, 1#32) := by decide
theorem test_nope_advances_once :
    seen (step (loaded [0x0C, 0x05])) (fun t => (t.status, t.pc, t.tick)) = some (.running, 0x002#12, 1#32) := by decide
theorem test_settImm_M1 :
    seen (exec (.settImm 7#4 0x00#8) (State.reset.writeReg 7#4 0x33#8)) (·.readReg 7#4) = some 0x00#8 := by decide
theorem test_settReg_M2 :
    seen (exec (.settReg 1#4 3#4) (State.reset.writeReg 3#4 0x7E#8)) (fun t => (t.readReg 1#4, t.readReg 3#4)) =
      some (0x7E#8, 0x7E#8) := by decide
theorem test_finn_M4_M5 :
    seen (exec (.finn 0x018#12) (State.reset.writeReg 1#4 0xEE#8)) (fun t => (t.readReg 0#4, t.readReg 1#4)) =
      some (0x18#8, 0x00#8) ∧
    seen (exec (.finn 0xFFF#12) State.reset) (fun t => (t.readReg 0#4, t.readReg 1#4)) = some (0xFF#8, 0x0F#8) := by
  decide
theorem test_last_M7 :
    seen (exec (.last 3#4) ((State.reset.writeReg 1#4 0xF1#8).writeByte 0x100#12 0x5A#8)) (·.readReg 3#4) =
      some 0x5A#8 := by decide
theorem test_last_M8 :
    seen (exec (.last 0#4) ((State.reset.writeReg 1#4 0x01#8).writeByte 0x100#12 0x5A#8))
      (fun t => (t.readReg 0#4, t.readReg 1#4)) = some (0x5A#8, 0x01#8) := by decide
theorem test_lagr_M11 :
    seen (exec (.lagr 1#4) ((State.reset.writeReg 1#4 0x02#8).writeReg 0#4 0x34#8)) (·.readByte 0x234#12) =
      some 0x02#8 := by decide
theorem test_og_A1 : seen (exec (.og 2#4 3#4) (pair 0xCA#8 0x0F#8)) (·.readReg 2#4) = some 0x0A#8 := by decide
theorem test_eller_A3 : seen (exec (.eller 2#4 3#4) (pair 0xC0#8 0x0F#8)) (·.readReg 2#4) = some 0xCF#8 := by decide
theorem test_xeller_A5 : seen (exec (.xeller 2#4 3#4) (pair 0xAA#8 0x0F#8)) (·.readReg 2#4) = some 0xA5#8 := by decide
theorem test_vskift_A7_A11 :
    seen (exec (.vskift 2#4 3#4) (pair 0x81#8 0x01#8)) (·.readReg 2#4) = some 0x02#8 ∧
    seen (exec (.vskift 2#4 3#4) (pair 0x01#8 0x20#8)) (·.readReg 2#4) = some 0x00#8 := by decide
theorem test_vskift_A29 : seen (exec (.vskift 2#4 2#4) (pair 0x03#8 0x00#8)) (·.readReg 2#4) = some 0x18#8 := by decide
theorem test_hskift_A13_A17 :
    seen (exec (.hskift 2#4 3#4) (pair 0x81#8 0x01#8)) (·.readReg 2#4) = some 0x40#8 ∧
    seen (exec (.hskift 2#4 3#4) (pair 0x80#8 0x21#8)) (·.readReg 2#4) = some 0x00#8 := by decide
theorem test_pluss_A20_A34 :
    seen (exec (.pluss 2#4 3#4) (pair 0xFF#8 0x01#8)) (fun t => (t.readReg 2#4, t.flag)) = some (0x00#8, false) ∧
    seen (exec (.pluss 2#4 2#4) (pair 0x41#8 0x00#8)) (·.readReg 2#4) = some 0x82#8 := by decide
theorem test_minus_A23_A25 :
    seen (exec (.minus 2#4 3#4) (pair 0x00#8 0x01#8)) (·.readReg 2#4) = some 0xFF#8 ∧
    seen (exec (.minus 2#4 3#4) (pair 0x10#8 0x20#8)) (·.readReg 2#4) = some 0xF0#8 := by decide

/-- `flag` after the six compares of `r2` and `r3`, in the order of the vectors' columns. -/
def compares (x y : Byte) : List (Option Bool) :=
  [Instr.lik 2#4 3#4, .ulik 2#4 3#4, .me 2#4 3#4, .mel 2#4 3#4, .se 2#4 3#4, .sel 2#4 3#4].map fun i =>
    seen (exec i (pair x y)) (·.flag)

theorem test_compares_C1 :
    compares 0x00#8 0x00#8 = [some true, some false, some false, some true, some false, some true] := by decide
theorem test_compares_C4 :
    compares 0x01#8 0x80#8 = [some false, some true, some true, some true, some false, some false] := by decide
theorem test_compares_C6 :
    compares 0xFF#8 0x00#8 = [some false, some true, some false, some false, some true, some true] := by decide
theorem test_les_I2 :
    seen (exec (.les 3#4) (reading 1)) (fun t => (t.readReg 3#4, t.inputPtr)) = some (0x0F#8, 2) := by decide
theorem test_les_I3 :
    seen (step ((reading 2).withFetchWord 16 0x0406)) (fun t => (t.status, t.pc, t.inputPtr, t.tick)) =
      some (.faulted .readAfterEndOfInput 0x000#12, 0x002#12, 2, 1#32) := by decide
theorem test_skriv_I5 :
    seen (exec (.skriv 0#4) (State.reset.writeReg 0#4 0x08#8)) (·.outputStream) = some [0x08#8] := by decide
theorem test_skriv_I7 :
    seen (exec (.skriv 0#4) (wrote 1000)) (fun t => (t.status, t.outputStream.length)) =
      some (.faulted .segmentationFault 0x000#12, 1000) := by decide +kernel
theorem test_hopp_J1_J2 :
    seen (exec (.hopp 0x00A#12) (State.reset.setPc 0x014#12)) (·.pc) = some 0x00A#12 ∧
    seen (exec (.hopp 0x000#12) State.reset) (·.pc) = some 0x000#12 := by decide
theorem test_bhopp_J3_J4 :
    seen (exec (.bhopp 0x008#12) ((State.reset.setPc 0x00E#12).setFlag true)) (fun t => (t.pc, t.flag)) =
      some (0x008#12, true) ∧
    seen (exec (.bhopp 0x008#12) (State.reset.setPc 0x00E#12)) (fun t => (t.pc, t.flag)) = some (0x010#12, false) := by
  decide
theorem test_tur_J6 :
    seen (exec (.tur 0x100#12) (State.reset.setPc 0xFFE#12)) (fun t => (t.pc, t.callStack)) =
      some (0x100#12, [0x000#12]) := by decide
theorem test_tur_J7 :
    seen (exec (.tur 0x006#12) (deep 100)) (fun t => (t.status, t.pc, t.depth)) =
      some (.faulted .recursionLimitExceeded 0x040#12, 0x042#12, 100) := by decide
theorem test_retur_J9 :
    seen (exec .retur { State.reset with callStack := [0x004#12, 0x123#12] }) (fun t => (t.pc, t.callStack)) =
      some (0x123#12, [0x004#12]) := by decide
theorem test_retur_J10 :
    seen (exec .retur (State.reset.setPc 0x002#12)) (fun t => (t.status, t.pc)) =
      some (.faulted .segmentationFault 0x002#12, 0x000#12) := by decide
theorem test_illegal_M13 :
    seen (step (loaded [0x24])) (fun t => (t.status, t.pc)) =
      some (.faulted .segmentationFault 0x000#12, 0x002#12) := by decide
theorem test_fetch_wraps_J11 :
    seen (step (((State.reset.writeByte 0xFFF#12 0x21#8).writeByte 0x000#12 0xF8#8).setPc 0xFFF#12))
      (fun t => (t.readReg 2#4, t.pc)) = some (0xF8#8, 0x001#12) := by decide
theorem test_budget_zero_L12 :
    seen (step (State.reset.setMaxTicks 0#32)) (fun t => (t.status, t.tick)) =
      some (.faulted (.resourcesExhausted 0#32) 0x000#12, 0#32) := by decide

/-! ## Commands, disassembler, assembler (L1, L7, L8, 2.9, P1) -/

theorem test_load_L7 : State.load [0x2E, 0x53, 0x4C] false State.reset = .fault (.unsupportedExecutable 3) :=
  rfl
theorem test_load_L8 :
    seen (State.load Config.magic false (loaded [0x01])) (fun t => (t.memoryUsed, t.memory)) = some (0, []) := by decide
theorem test_run_L8_halts :
    seen (loaded []).run (fun rep => (rep.outcome, rep.notified)) = some (.halted, [0x000#12]) := by
  decide +kernel
theorem test_render_illegal_2_9 :
    (render 0x2E#8 0x53#8).text = ".DATA 0x2E ; unknown class 0xE".toList ∧ (render 0x2E#8 0x53#8).consumed = 1 := by
  decide
theorem test_render_legal_2_9 :
    (render 0x83#8 0x01#8).text = "FINN 0x018".toList ∧ (render 0x55#8 0x30#8).text = "PLUSS r0, r3".toList := by decide
theorem test_disassemble_last_byte_2_9 :
    (disassemble 0 4 {} (loaded [0x2E, 0x53, 0x4C, 0x45])).map (fun l => (l.address, l.text)) =
      [(0, ".DATA 0x2E ; unknown class 0xE".toList), (1, "FINN 0x4C5".toList), (3, ".DATA 0x45".toList)] := by decide
/-- The output of program P3, "output = `48 69`", as digits. -/
theorem test_output_hex_P3 :
    State.readOutputHex { State.reset with outputStream := [0x48#8, 0x69#8, 0x0A#8] } = "48690A".toList := by decide
theorem test_parse_decimal_and_hex :
    parseLine "SETT r0, 5 ; five".toList = .ok (.instr ⟨.sett, [.reg 0, .num 5]⟩) ∧
    parseLine "HOPP 0x00A".toList = .ok (.instr ⟨.hopp, [.num 10]⟩) := by decide
theorem test_parse_data_P3 :
    parseLine ".DATA 'Hi', 0".toList = .ok (.data [0x48#8, 0x69#8, 0x00#8]) := by decide
theorem test_parse_label_like_register :
    parseLine "r5:".toList = .ok (.label "r5".toList) ∧ parseLine "HOPP r5".toList = .ok (.instr ⟨.hopp, [.reg 5]⟩) := by
  decide
theorem test_parse_inner_quote : parseLine ".DATA 'a'b'".toList = .error .malformedData := by decide
theorem test_options_default : ({} : RangeOptions).allowOutsideLoadedMemory = false := rfl
theorem test_parse_register_16 : parseLine "LES r16".toList = .ok (.instr ⟨.les, [.label "r16".toList]⟩) := by decide
theorem test_register_16_is_an_error : assemble "LES r16".toList = .error ⟨1, .wrongArguments⟩ := by decide
theorem test_assemble_label :
    assemble "start:\nHOPP start\nHOPP nowhere".toList = .error ⟨3, .unresolvedLabel⟩ ∧
    assemble "NOPE\nhere:\nHOPP here".toList = .ok (Config.magic ++ [0x0C#8, 0x00#8, 0x28#8, 0x00#8]) := by decide

/-! ## Witnesses: for each statement with hypotheses, a state and operands that meet them -/

/-- A running state, its flag set, mid-run. -/
def demo : State :=
  { State.reset with
    regs := State.reset.regs.set 2 0x7E#8, pc := 0x014#12, flag := true, callStack := [0x004#12], tick := 5#32,
    stdin := [0xAA#8, 0x0F#8], inputPtr := 1, outputStream := [0x08#8], memory := [(0x14, 0x0C#8), (0xFFF, 0x21#8)],
    memoryUsed := 27 }

/-- `demo` stopped at a halt, and at a fault. -/
def halted : State := { demo with status := .halted }
def faulted : State := { demo with status := .faulted .segmentationFault 0x012#12 }

theorem witness_ClassifyThenEncodeIffCanonical : classify 0xA312#16 = .ok (.settReg 1#4 3#4) := by decide

theorem witness_DontCareBitsAreIgnored :
    rowOfWord 0x0312#16 = some (classRow .sett 0x0002#16 0xF000#16) ∧
    0x0312#16 &&& ~~~(classRow .sett 0x0002#16 0xF000#16).dontCare =
      0xA312#16 &&& ~~~(classRow .sett 0x0002#16 0xF000#16).dontCare := by decide

theorem witness_WordsAreSelectedByOneRowOfTheOpcodeTable :
    classify 0x6065#16 = .ok (.minus 0#4 6#4) ∧ classify 0x0075#16 = .error (.unknownSubcode 5#4 7#4) := by decide

theorem witness_StepKeepsInvariant : demo.Inv ∧ ∃ t, step demo = .next t := ⟨by decide, _, rfl⟩

theorem witness_CommandsKeepInvariant :
    demo.Inv ∧ (∃ t, demo.load Config.magic false = .next t) ∧ (∃ t, demo.load [0x01#8] true = .next t) ∧
    (∃ t, demo.setPcCommand 0x01A#12 {} = .next t) ∧ (∃ t, demo.setPcCommand 0xFFF#12 { allowOutsideLoadedMemory := true } = .next t) ∧
    (∃ rep, (loaded []).run = .next rep ∧ rep.outcome = .halted) ∧
    (∃ rep, demo.stepCommand (.count 1) = .next rep ∧ rep.outcome = .continuing) :=
  ⟨by decide, ⟨_, rfl⟩, ⟨_, rfl⟩, ⟨_, rfl⟩, ⟨_, rfl⟩, answers_of_seen (by decide +kernel),
    answers_of_seen (by decide +kernel)⟩

theorem witness_PushAndPopAreBounded :
    (deep 100).depth = 100 ∧ (deep 99).depth < 100 ∧ (deep 0).depth = 0 ∧ (deep 1).depth = 0 + 1 := by decide

theorem witness_StepRunsTheDecodedInstruction :
    demo.canCycle ∧ decodeBytes [demo.readByte demo.pc, demo.readByte (demo.pc + 1#12)] = .ok (.nope, []) := by decide

theorem witness_StoppedCoreExecutesNothing :
    halted.status ≠ .running ∧ halted.status = .halted ∧ faulted.status = .faulted .segmentationFault 0x012#12 := by decide

/-- A running state whose budget is spent. -/
def spent : State := { demo with maxTicks := 5#32 }

theorem witness_SpentBudgetRefusesTheCycle :
    spent.status = .running ∧ spent.tick.toNat + 1 > spent.maxTicks.toNat := by decide

theorem witness_EveryCycleCostsOneTick :
    State.canCycle { demo with maxTicks := 6#32 } ∧ ∃ t, step { demo with maxTicks := 6#32 } = .next t :=
  ⟨by decide, _, rfl⟩

theorem witness_IllegalWordRaisesSegmentationFault :
    (loaded [0x24]).canCycle ∧
    decodeBytes [(loaded [0x24]).readByte (loaded [0x24]).pc, (loaded [0x24]).readByte ((loaded [0x24]).pc + 1#12)] =
      .error (.illegal (.unknownSubcode 4#4 2#4)) := by decide

theorem witness_FaultsArePrecise :
    (∃ t, step spent = .next t ∧ t.status = .faulted (.resourcesExhausted 5#32) 0x014#12) ∧
    (∃ t, step (loaded [0x24]) = .next t ∧ t.status = .faulted .segmentationFault 0x000#12) ∧
    (∃ t, step (loaded [0x0B]) = .next t ∧ t.status = .faulted .segmentationFault 0x000#12 ∧
      classify (loaded [0x0B]).fetchWord = .ok .retur) :=
  ⟨⟨_, rfl, by decide⟩, ⟨_, rfl, by decide⟩, ⟨_, rfl, by decide, by decide⟩⟩

theorem witness_InstructionsFaultOnlyAsListed_les :
    ∃ t, exec (.les 4#4) (reading 2) = .next t ∧ t.status = .faulted .readAfterEndOfInput 0x000#12 :=
  ⟨_, rfl, by decide⟩

theorem witness_InstructionsFaultOnlyAsListed_skriv :
    ∃ t, exec (.skriv 4#4) (wrote 1000) = .next t ∧ t.status = .faulted .segmentationFault 0x000#12 :=
  answers_of_seen (f := State.status) (by decide +kernel)

theorem witness_InstructionsFaultOnlyAsListed_tur :
    ∃ t, exec (.tur 0x006#12) (deep 100) = .next t ∧ t.status = .faulted .recursionLimitExceeded 0x040#12 :=
  ⟨_, rfl, by decide⟩

theorem witness_InstructionsFaultOnlyAsListed_retur :
    ∃ t, exec .retur (deep 0) = .next t ∧ t.status = .faulted .segmentationFault 0x040#12 :=
  ⟨_, rfl, by decide⟩

theorem witness_FetchIsLittleEndianAndWraps :
    (demo.setPc 0xFFE#12).pc.toNat < 4095 ∧ (demo.setPc 0xFFF#12).pc = 0xFFF#12 := by decide

theorem witness_AdvanceWrapsAtTheTop :
    ∃ t, exec .nope (demo.setPc 0xFFF#12) = .next t ∧ t.status = (demo.setPc 0xFFF#12).status ∧
      (∀ a, Instr.nope ≠ .hopp a ∧ (Instr.nope = .bhopp a → demo.flag = false) ∧ Instr.nope ≠ .tur a) ∧
      Instr.nope ≠ .retur ∧ Instr.nope ≠ .stopp :=
  ⟨_, rfl, rfl, by simp, by decide, by decide⟩

/-- The same for a BHOPP that is not taken, at the top of memory. -/
theorem witness_AdvanceWrapsAtTheTop_bhopp :
    ∃ t, exec (.bhopp 0x100#12) (State.reset.setPc 0xFFE#12) = .next t ∧ t.status = .running ∧
      ∀ a, Instr.bhopp 0x100#12 ≠ .hopp a ∧ (Instr.bhopp 0x100#12 = .bhopp a → (State.reset.setPc 0xFFE#12).flag = false) ∧
        Instr.bhopp 0x100#12 ≠ .tur a :=
  ⟨_, rfl, rfl, fun _ => ⟨by simp, fun _ => rfl, by simp⟩⟩

/-- The later state has had another byte stored to since. -/
theorem witness_StoreIsSeenByTheFetch :
    ∃ t, exec (.lagr 2#4) demo = .next t ∧
      (∃ u : State, u.readByte demo.pointer = t.readByte demo.pointer ∧ u.memory ≠ t.memory ∧ u.pc = demo.pointer) ∧
      (∃ u : State, u.readByte demo.pointer = t.readByte demo.pointer ∧ u.memory ≠ t.memory ∧ u.pc + 1#12 = demo.pointer) :=
  ⟨_, rfl,
    ⟨((demo.advance.writeByte demo.pointer 0x7E#8).writeByte 0x200#12 0x01#8).setPc demo.pointer,
      by decide, by decide, by decide⟩,
    ⟨((demo.advance.writeByte demo.pointer 0x7E#8).writeByte 0x200#12 0x01#8).setPc (demo.pointer - 1#12),
      by decide, by decide, by decide⟩⟩

theorem witness_StoppHalts :
    (0xFFF0#16).toNat % 16 = 0 ∧ State.canCycle (loaded [0xF0, 0xFF]) ∧ (loaded [0xF0, 0xFF]).fetchWord.toNat % 16 = 0 := by
  decide

theorem witness_NopeOnlyAdvances :
    (0xFFFC#16).toNat % 16 = 12 ∧ demo.canCycle ∧ demo.fetchWord.toNat % 16 = 12 := by decide

theorem witness_SettRegisterCopies : (0xF312#16).toNat % 4096 = (encode (.settReg 1#4 3#4)).toNat := by decide

theorem witness_LastLoadsThroughThePointer : (0xF204#16).toNat % 4096 = (encode (.last 2#4)).toNat := by decide

theorem witness_LagrStoresThroughThePointer : (0xF214#16).toNat % 4096 = (encode (.lagr 2#4)).toNat := by decide

theorem witness_ShiftsByARegisterCount :
    8 ≤ ((pair 0xFF#8 0x08#8).readReg 3#4).toNat ∧ 8 ≤ ((pair 0x01#8 0xFF#8).readReg 3#4).toNat := by decide

/-- The premise of `Advanced` at its two ends. -/
theorem witness_Advanced :
    State.reset.pc.toNat + 2 < 4096 ∧ (State.reset.setPc 0xFFD#12).pc.toNat + 2 < 4096 := by decide

theorem witness_LesReadsTheNextInputByte :
    (reading 1).stdin[(reading 1).inputPtr]? = some 0x0F#8 ∧ (reading 2).stdin.length ≤ (reading 2).inputPtr := by
  decide

theorem witness_SkrivAppendsToTheOutput :
    (wrote 999).outputStream.length < 1000 ∧ 1000 ≤ (wrote 1000).outputStream.length := by decide +kernel

theorem witness_HoppAndBhoppJump :
    demo.flag = true ∧ State.reset.flag = false ∧ (loaded [0x08]).canCycle ∧
    classify (loaded [0x08]).fetchWord = .ok (.hopp 0x000#12) ∧
    classify (State.withFetchWord demo 16 0xFFF9).fetchWord = .ok (.bhopp 0xFFF#12) ∧
    (State.withFetchWord demo 16 0xFFF9).canCycle ∧ (State.withFetchWord demo 16 0xFFF9).flag = true := by decide

/-- The source's example S3: a HOPP to itself with 100 ticks; and the same with none left. -/
theorem witness_TightLoopEndsWhenTheBudgetIsSpent :
    ((loaded [0x08]).setMaxTicks 100#32).status = .running ∧
    classify ((loaded [0x08]).setMaxTicks 100#32).fetchWord = .ok (.hopp ((loaded [0x08]).setMaxTicks 100#32).pc) ∧
    ((loaded [0x08]).setMaxTicks 100#32).tick.toNat + 100 = ((loaded [0x08]).setMaxTicks 100#32).maxTicks.toNat ∧
    ((loaded [0x08]).setMaxTicks 0#32).tick.toNat + 0 = ((loaded [0x08]).setMaxTicks 0#32).maxTicks.toNat := by decide

theorem witness_TurCallsUpToTheLimit : (deep 99).depth < 100 ∧ (deep 100).depth = 100 := by decide

theorem witness_ReturReturnsOrFaultsAtZero :
    (0xFFFB#16).toNat % 16 = 11 ∧ demo.callStack = [] ++ [0x004#12] ∧ State.reset.callStack = [] ∧
    (State.withFetchWord demo 16 0xFFFB).canCycle ∧ (State.withFetchWord demo 16 0xFFFB).fetchWord.toNat % 16 = 11 ∧
    (State.withFetchWord demo 16 0xFFFB).callStack = [] ++ [0x004#12] := by decide

theorem witness_ReturComesBackAfterTheCall :
    (deep 99).depth < 100 ∧ ∃ t, exec (.tur 0x006#12) (deep 99) = .next t ∧ ∃ v, exec .retur t = .next v :=
  ⟨by decide, _, rfl, _, rfl⟩

theorem witness_FlagIsWrittenByComparesAndReadByBhopp :
    (∃ t, exec (.ulik 0#4 0#4) demo = .next t ∧ t.flag ≠ demo.flag) ∧ (∃ t, exec (.og 0#4 0#4) demo = .next t) ∧
    (∃ t, exec (.bhopp 0x100#12) demo = .next t ∧ demo.flag = true) ∧
    (∃ t, exec (.bhopp 0x100#12) State.reset = .next t ∧ State.reset.flag = false) :=
  ⟨⟨_, rfl, by decide⟩, ⟨_, rfl⟩, ⟨_, rfl, rfl⟩, ⟨_, rfl, rfl⟩⟩

theorem witness_RegistersAreWrittenOnlyAsListed :
    ∃ t, exec (.finn 0x7FF#12) demo = .next t ∧ t.readReg 1#4 ≠ demo.readReg 1#4 := ⟨_, rfl, by decide⟩

theorem witness_StoresAreReachedOnlyByTheirInstructions :
    (∃ t, exec (.lagr 2#4) demo = .next t ∧ t.readByte demo.pointer ≠ demo.readByte demo.pointer) ∧
    (∃ t, exec .retur demo = .next t ∧ t.callStack ≠ demo.callStack) ∧
    (∃ t, exec (.les 2#4) demo = .next t ∧ t.inputPtr ≠ demo.inputPtr) ∧
    (∃ t, exec (.skriv 2#4) demo = .next t ∧ t.outputStream ≠ demo.outputStream) :=
  ⟨⟨_, rfl, by decide⟩, ⟨_, rfl, by decide⟩, ⟨_, rfl, by decide⟩, ⟨_, rfl, by decide⟩⟩

theorem witness_ProgramsCannotTouchHostState : ∃ t, runSteps 2 demo = .next t := ⟨_, rfl⟩

theorem witness_BreakpointsAndImageSizeAreInvisible : ∃ t, runSteps 1 demo = .next t ∧ t.pc = 0x016#12 :=
  ⟨_, rfl, by decide⟩

theorem witness_LoadChecksThenSetsTheLaunchState :
    4096 < (List.replicate 4097 0x2E#8).length ∧ (List.replicate 4096 0x00#8).length ≤ 4096 ∧
    [0x2E#8, 0x53#8, 0x4C#8].take 7 ≠ [0x2E, 0x53, 0x4C, 0x45, 0x44, 0x45, 0x38] ∧
    [0x2E, 0x53, 0x4C, 0x45, 0x44, 0x45, 0x38, 0x01#8] = [0x2E, 0x53, 0x4C, 0x45, 0x44, 0x45, 0x38] ++ [0x01#8] :=
  ⟨by decide +kernel, by decide +kernel, by decide, by decide⟩

theorem witness_RunStopsAtTheFirstStop :
    seen (loaded [0x0C]).run (fun rep => (rep.outcome, rep.notified)) = some (.halted, [0x002#12, 0x002#12]) := by
  decide +kernel

/-- The four ways a `step` of a running core ends, and a count of 0: outcome and notifications. -/
theorem witness_StepCommandMakesItsCycles :
    demo.status = .running ∧ seen (demo.stepCommand (.count 0)) (fun rep => rep.outcome) = some .continuing ∧
    seen (demo.stepCommand (.count 1)) (fun rep => (rep.outcome, rep.notified)) = some (.continuing, [0x016#12]) ∧
    seen ((demo.setBp 0x016#12).stepCommand (.count 2)) (fun rep => (rep.outcome, rep.notified)) =
      some (.breakpointHit, [0x016#12]) ∧
    seen (demo.stepCommand (.count 3)) (fun rep => (rep.outcome, rep.notified)) =
      some (.halted, [0x016#12, 0x016#12]) ∧
    seen (spent.stepCommand (.count 1)) (fun rep => (rep.outcome, rep.notified)) =
      some (.faulted (.resourcesExhausted 5#32) 0x014#12, []) := by decide +kernel

theorem witness_StepCommandMakesItsCycles_unbounded :
    seen ((loaded [0x24]).stepCommand .unbounded) (fun rep => (rep.outcome, rep.notified)) =
      some (.faulted .segmentationFault 0x000#12, [0x002#12]) := by decide +kernel

theorem witness_BreakpointCommandsActOnTheirAddress : cycleOutcome (demo.setBp 0x014#12) = .breakpointHit := by
  decide +kernel

theorem witness_BudgetInputAndPcCommands :
    halted.status ≠ .running ∧ [0x41#8].head? = some 0x41#8 ∧ (0x01A#12).toNat < demo.memoryUsed ∧
    demo.memoryUsed ≤ (0x01B#12).toNat := by decide

theorem witness_WrittenInstructionsEncodeWhenWellFormed :
    SourceInstr.wf ⟨.tur, [.num 4095]⟩ = true ∧ SourceInstr.toInstr? ⟨.tur, [.num 4095]⟩ = some (.tur 0xFFF#12) := by
  decide

theorem witness_RenderedTextReassembles : classify (wordOfBytes 0xF1#8 0xFF#8) = .ok (.settImm 15#4 0xFF#8) := by decide

theorem witness_DisassemblyCoversTheRange : (disassemble 0 1 {} (loaded [0x45])).length = 1 := by decide

theorem witness_AssembledImageLoads :
    assemble ".DATA 'Hi'\nhere:\nHOPP here".toList = .ok (Config.magic ++ [0x48#8, 0x69#8, 0x28#8, 0x00#8]) ∧
    (Config.magic ++ [0x48#8, 0x69#8, 0x28#8, 0x00#8]).length ≤ 4096 := by decide

end Sys2Proof.Tests
end

section
/-! PROOFS. What one instruction can do to a state, said once; and the statements about the state (spec/10_state.md) that
follow from it: the invariant, the call stack, the advance of `pc`, who writes the registers, the flag and the stores, and
what execution does not depend on. -/

namespace Sys2Proof.Machine

/-! ## What one instruction can do -/

/-- The destination register of SETT, LAST and the ALU (R22); LES and FINN have effects of their own. -/
def destination? : Instr → Option RegIdx
  | .settImm d _ | .settReg d _ | .last d => some d
  | .og d _ | .eller d _ | .xeller d _ | .vskift d _ | .hskift d _ | .pluss d _ | .minus d _ => some d
  | _ => none

theorem destination?_eq_some {i : Instr} {d : RegIdx} : destination? i = some d ↔
    (∃ imm, i = .settImm d imm) ∨ (∃ r, i = .settReg d r) ∨ i = .last d ∨
    ∃ r, i = .og d r ∨ i = .eller d r ∨ i = .xeller d r ∨ i = .vskift d r ∨ i = .hskift d r ∨ i = .pluss d r ∨
      i = .minus d r := by
  cases i <;> simp [destination?]

/-- Whether an instruction is one of the six compares (R24). -/
def isCompare : Instr → Bool
  | .lik _ _ | .ulik _ _ | .me _ _ | .mel _ _ | .se _ _ | .sel _ _ => true
  | _ => false

theorem isCompare_iff {i : Instr} : isCompare i = true ↔
    ∃ x y, i = .lik x y ∨ i = .ulik x y ∨ i = .me x y ∨ i = .mel x y ∨ i = .se x y ∨ i = .sel x y := by
  cases i <;> simp [isCompare]

/-- The faults that leave `pc` advanced: which instruction raises which, and when (R274). -/
def Faults (i : Instr) (s : State) (kind : FaultKind) : Prop :=
  ((∃ d, i = .les d) ∧ kind = .readAfterEndOfInput ∧ s.stdin.length ≤ s.inputPtr) ∨
  ((∃ r, i = .skriv r) ∧ kind = .segmentationFault ∧ Config.outMax ≤ s.outputStream.length) ∨
  ((∃ a, i = .tur a) ∧ kind = .recursionLimitExceeded ∧ Config.callDepth ≤ s.depth)

/-- What an instruction can do to a state: one constructor per shape of result, under the condition it happens on. -/
inductive Effect : Instr → State → State → Prop where
  /-- STOPP (R130) -/
  | halts (s) : Effect .stopp s s.halt
  /-- NOPE and the untaken BHOPP (R131, R201) -/
  | passes {i s} (h : i = .nope ∨ ∃ a, i = .bhopp a ∧ s.flag = false) : Effect i s s.advance
  /-- HOPP and the taken BHOPP (R200, R201) -/
  | jumps {i s a} (h : i = .hopp a ∨ i = .bhopp a ∧ s.flag = true) : Effect i s (s.advance.setPc a)
  /-- SETT, LAST and the ALU write their destination (R140, R141, R151, R160) -/
  | sets {i s d} (v) (h : destination? i = some d) : Effect i s (s.finishWith d v)
  /-- FINN writes the pointer pair (R150) -/
  | points (a s) : Effect (.finn a) s ((s.finishWith 1#4 (addrHigh a)).writeReg 0#4 (addrLow a))
  /-- LAGR stores at the effective address (R152) -/
  | stores (r s) : Effect (.lagr r) s (s.advance.writeByte s.pointer (s.readReg r))
  /-- a compare writes the flag (R196) -/
  | compares {i s} (b) (h : isCompare i = true) : Effect i s (s.advance.setFlag b)
  /-- LES with input left (R180) -/
  | reads (d b) {s} (h : s.stdin[s.inputPtr]? = some b) :
    Effect (.les d) s (({ s with inputPtr := s.inputPtr + 1 } : State).finishWith d b)
  /-- SKRIV with room in the output (R181) -/
  | prints (r) {s} (h : s.outputStream.length < Config.outMax) :
    Effect (.skriv r) s ({ s with outputStream := s.outputStream ++ [s.readReg r] } : State).advance
  /-- TUR below the depth limit (R202) -/
  | calls (a) {s} (h : s.depth < Config.callDepth) :
    Effect (.tur a) s (({ s with callStack := s.callStack ++ [s.nextPc] } : State).setPc a)
  /-- RETUR with an entry on the stack (R203) -/
  | returns {s below ra} (h : s.callStack = below ++ [ra]) :
    Effect .retur s (({ s with callStack := below } : State).setPc ra)
  /-- the faults of LES, SKRIV and TUR (R274) -/
  | faults {i s kind} (h : Faults i s kind) : Effect i s (s.faultHere kind)
  /-- RETUR on an empty stack (R203) -/
  | returnFaults {s} (h : s.callStack = []) : Effect .retur s ((s.setPc 0x000#12).raise .segmentationFault s.pc)

/-- Every execution has one of these effects. -/
theorem effect_of_exec {i : Instr} {s t : State} (h : exec i s = .next t) : Effect i s t := by
  cases i with
  | stopp => cases h; exact .halts s
  | nope => cases h; exact .passes (.inl rfl)
  | finn a => cases h; exact .points a s
  | lagr r => cases h; exact .stores r s
  | hopp a => cases h; exact .jumps (.inl rfl)
  | bhopp a =>
    rw [exec_bhopp] at h; cases h
    split_ifs with hf
    · exact .jumps (.inr ⟨rfl, hf⟩)
    · exact .passes (.inr ⟨a, rfl, by simpa using hf⟩)
  | les d =>
    rw [exec_les] at h; cases h
    split
    · next hb => exact .reads d _ hb
    · next hb => exact .faults (.inl ⟨⟨d, rfl⟩, rfl, List.getElem?_eq_none_iff.mp hb⟩)
  | skriv r =>
    rw [exec_skriv] at h; cases h
    split_ifs with hr
    · exact .prints r hr
    · exact .faults (.inr (.inl ⟨⟨r, rfl⟩, rfl, Nat.le_of_not_lt hr⟩))
  | tur a =>
    rw [exec_tur] at h; cases h
    split_ifs with hd
    · exact .calls a hd
    · exact .faults (.inr (.inr ⟨⟨a, rfl⟩, rfl, Nat.le_of_not_lt hd⟩))
  | retur =>
    rw [exec_retur] at h; cases h
    split
    · next ra hra => exact .returns (List.dropLast_append_getLast? ra hra).symm
    · next hnone => exact .returnFaults (List.getLast?_eq_none_iff.mp hnone)
  | lik | ulik | me | mel | se | sel => cases h; exact .compares _ rfl
  | _ => cases h; exact .sets _ rfl

/-! ## The invariant -/

/-- Settles O10: nothing is held at power-on, and every bound admits nothing. -/
theorem powerOnStateMeetsInvariant : Obligations.PowerOnStateMeetsInvariant := by
  unfold Obligations.PowerOnStateMeetsInvariant
  decide

/-- Only a store, a call, a return, an input and an output can touch what the invariant bounds. -/
theorem Effect.keeps_inv {i : Instr} {s t : State} (h : Effect i s t) (hs : s.Inv) : t.Inv := by
  obtain ⟨hmem, hstack, htick, hin, hout, hused⟩ := hs
  cases h with
  | stores r => exact ⟨State.writeByte_wf hmem _ _, hstack, htick, hin, hout, hused⟩
  | reads d b hb => exact ⟨hmem, hstack, htick, (List.getElem?_eq_some_iff.mp hb).1, hout, hused⟩
  | prints r hr => exact ⟨hmem, hstack, htick, hin, by simpa using hr, hused⟩
  | calls a hd => exact ⟨hmem, by simpa using (show s.callStack.length < _ from hd), htick, hin, hout, hused⟩
  | returns hra =>
    rw [hra, List.length_append] at hstack
    exact ⟨hmem, (Nat.le_add_right ..).trans hstack, htick, hin, hout, hused⟩
  | _ => exact ⟨hmem, hstack, htick, hin, hout, hused⟩

theorem countTick_keeps_inv {s : State} (hc : s.canCycle) (hs : s.Inv) : s.countTick.Inv := by
  obtain ⟨hmem, hstack, -, hrest⟩ := hs
  exact ⟨hmem, hstack, by rw [State.countTick_toNat hc.2]; exact hc.2, hrest⟩

theorem step_keeps_inv (s t : State) (hs : s.Inv) (h : step s = .next t) : t.Inv := by
  obtain ⟨-, rfl⟩ | ⟨-, -, rfl⟩ | ⟨hc, -, -, rfl⟩ | ⟨hc, i, -, hi⟩ := step_cases h
  · exact hs
  · exact hs
  · exact countTick_keeps_inv hc hs
  · exact (effect_of_exec hi).keeps_inv (countTick_keeps_inv hc hs)

/-- Settles O11, by the four things a step can do and the effects of an instruction. -/
theorem stepKeepsInvariant : Obligations.StepKeepsInvariant := by
  unfold Obligations.StepKeepsInvariant
  exact step_keeps_inv

/-- The loop of `run` and `step` always ends in a report. -/
theorem runLoop_answers (n : Nat) (s : State) : ∃ rep, runLoop n s = .next rep := by
  induction n generalizing s with
  | zero => exact ⟨_, rfl⟩
  | succ n ih =>
    obtain ⟨t, ht⟩ := step_answers s
    by_cases ho : cycleOutcome t = .continuing
    · obtain ⟨rep, hr⟩ := ih t
      exact ⟨_, runLoop_of_continuing ht ho hr⟩
    · exact ⟨_, runLoop_of_stop ht ho⟩

/-- What every step keeps, the loop of `run` and `step` keeps. -/
theorem runLoop_induction {P : State → Prop} (hstep : ∀ s t, P s → step s = .next t → P t) {n : Nat} {s : State}
    {rep : RunReport} (hs : P s) (h : runLoop n s = .next rep) : P rep.state := by
  induction n generalizing s rep with
  | zero => cases h; exact hs
  | succ n ih =>
    obtain ⟨t, ht⟩ := step_answers s
    have hPt := hstep s t hs ht
    by_cases ho : cycleOutcome t = .continuing
    · obtain ⟨rest, hr⟩ := runLoop_answers n t
      rw [runLoop_of_continuing ht ho hr] at h
      cases h
      exact ih (rep := rest) hPt hr
    · rw [runLoop_of_stop ht ho] at h
      cases h
      exact hPt

theorem resetRegisters_keeps_inv {s : State} (hs : s.Inv) : s.resetRegisters.Inv := by
  obtain ⟨hmem, -, -, -, -, hused⟩ := hs
  exact ⟨hmem, by simp, by simp, by simp, by simp, hused⟩

theorem withPayload_inv (s : State) {payload : List Byte} (h : payload.length ≤ Config.memSize) :
    (s.withPayload payload).Inv :=
  ⟨Memory.ofBytes_wf h, by simp, by simp, by simp, by simp, h⟩

/-- A successful load has put a payload of at most 4096 bytes in memory. -/
theorem load_eq_next {s t : State} {image : List Byte} {skip : Bool} (h : s.load image skip = .next t) :
    ∃ payload : List Byte, payload.length ≤ Config.memSize ∧ t = s.withPayload payload := by
  unfold State.load at h
  split_ifs at h with hsize hskip hmagic
  · cases h; exact ⟨_, Nat.le_of_not_lt hsize, rfl⟩
  · cases h; exact ⟨_, (List.length_drop ▸ Nat.sub_le ..).trans (Nat.le_of_not_lt hsize), rfl⟩

theorem setPcCommand_eq_next {s t : State} {a : Addr} {options : RangeOptions}
    (h : s.setPcCommand a options = .next t) : t = s.setPc a := by
  unfold State.setPcCommand at h
  split_ifs at h
  cases h; rfl

theorem stepCommand_keeps_inv {s : State} {c : StepCount} {rep : RunReport} (hs : s.Inv)
    (h : s.stepCommand c = .next rep) : rep.state.Inv := by
  unfold State.stepCommand at h
  split at h
  · cases h; exact hs
  · cases c with
    | count n => exact runLoop_induction step_keeps_inv hs h
    | unbounded => exact runLoop_induction step_keeps_inv hs h

/-- Settles O12, command by command; `run` and `step` by the invariant of the cycle. -/
theorem commandsKeepInvariant : Obligations.CommandsKeepInvariant := by
  unfold Obligations.CommandsKeepInvariant
  intro s hs
  have hreset := resetRegisters_keeps_inv hs
  obtain ⟨hmem, hstack, htick, hin, hout, hused⟩ := id hs
  refine ⟨hreset, ?load, ?setMaxTicks, ?setInput, fun a => ⟨hs, hs, hs⟩, hs, ?setPc, ?run, ?step⟩
  case load =>
    intro image skip t h
    obtain ⟨payload, hlen, rfl⟩ := load_eq_next h
    exact withPayload_inv s hlen
  case setMaxTicks => exact fun n => ⟨hmem, hstack, Nat.zero_le _, hin, hout, hused⟩
  case setInput => exact fun bytes => ⟨hmem, hstack, htick, Nat.zero_le _, hout, hused⟩
  case setPc =>
    intro a options t h
    rw [setPcCommand_eq_next h]
    exact hs
  case run => exact fun rep h => runLoop_induction step_keeps_inv hreset h
  case step => exact fun c rep h => stepCommand_keeps_inv hs h

/-! ## The call stack -/

/-- A push below the limit adds a top entry, leaves those under it, and is undone by a pop. -/
theorem push_below_limit {s : State} (v : Addr) (h : s.depth < 100) :
    ∃ t, s.push v = some t ∧ t.depth = s.depth + 1 ∧ t.callStack[s.depth]? = some v ∧
      (∀ k, k < s.depth → t.callStack[k]? = s.callStack[k]?) ∧ t.pop = some (v, s) := by
  refine ⟨_, State.push_eq_some.mpr ⟨h, rfl⟩, ?_, ?_, ?_, State.pop_eq_some.mpr ⟨_, rfl, rfl⟩⟩
  · simp [State.depth]
  · simp [State.depth]
  · exact fun k hk => List.getElem?_append_left hk

/-- A pop of a stack that is not empty answers its top entry and leaves those under it. -/
theorem pop_above_zero {s : State} {d : Nat} (h : s.depth = d + 1) :
    ∃ top t, s.pop = some (top, t) ∧ t.depth = d ∧ s.callStack[d]? = some top ∧
      (∀ k, k < d → t.callStack[k]? = s.callStack[k]?) := by
  unfold State.depth at h
  obtain hnil | ⟨below, top, hcs⟩ := List.eq_nil_or_concat s.callStack
  · simp [hnil] at h
  · rw [List.concat_eq_append] at hcs
    obtain rfl : below.length = d := by simpa [hcs] using h
    refine ⟨top, _, State.pop_eq_some.mpr ⟨below, hcs, rfl⟩, rfl, by simp [hcs], ?_⟩
    exact fun k hk => by rw [hcs, List.getElem?_append_left hk]

/-- Settles O14, each operation at its bound and inside it. -/
theorem pushAndPopAreBounded : Obligations.PushAndPopAreBounded := by
  unfold Obligations.PushAndPopAreBounded
  intro s v
  refine ⟨fun h => State.push_eq_none.mpr h.ge, push_below_limit v, fun h => ?_, fun d => pop_above_zero⟩
  exact State.pop_eq_none.mpr (List.length_eq_zero_iff.mp h)

/-! ## The advance of `pc` -/

/-- Every effect but a halt, a taken jump, a call and a return leaves `pc` advanced. -/
theorem Effect.pc_eq_nextPc {i : Instr} {s t : State} (h : Effect i s t)
    (hjump : ∀ a, i ≠ .hopp a ∧ (i = .bhopp a → s.flag = false) ∧ i ≠ .tur a) (hretur : i ≠ .retur)
    (hstopp : i ≠ .stopp) : t.pc = s.nextPc := by
  cases h with
  | halts => exact absurd rfl hstopp
  | @jumps _ _ a h =>
    obtain ⟨hhopp, hbhopp, -⟩ := hjump a
    obtain rfl | ⟨rfl, hf⟩ := h
    · exact absurd rfl hhopp
    · simp [hbhopp rfl] at hf
  | calls a => exact absurd rfl (hjump a).2.2
  | returns => exact absurd rfl hretur
  | returnFaults => exact absurd rfl hretur
  | _ => rfl

/-- Settles O24, by the effects of an instruction. -/
theorem advanceWrapsAtTheTop : Obligations.AdvanceWrapsAtTheTop := by
  unfold Obligations.AdvanceWrapsAtTheTop
  intro i s t h _ hjump hretur hstopp
  rw [(effect_of_exec h).pc_eq_nextPc hjump hretur hstopp, State.nextPc_toNat]

/-! ## The flag -/

/-- The tick is counted by the cycle, and the rest is the host's (R283). -/
theorem Effect.sameHostState {i : Instr} {s t : State} (h : Effect i s t) : SameHostState s t := by
  cases h <;> exact ⟨rfl, rfl, rfl, rfl, rfl⟩

/-- The state with another flag, other breakpoints and another image size. -/
def overlay (b : Bool) (bp : BitVec 4096) (used : Nat) (s : State) : State :=
  { s with flag := b, breakpoints := bp, memoryUsed := used }

section
variable (b : Bool) (bp : BitVec 4096) (used : Nat) (s : State)

@[simp] theorem overlay_callStack : (overlay b bp used s).callStack = s.callStack := rfl
@[simp] theorem overlay_stdin : (overlay b bp used s).stdin = s.stdin := rfl
@[simp] theorem overlay_inputPtr : (overlay b bp used s).inputPtr = s.inputPtr := rfl
@[simp] theorem overlay_outputStream : (overlay b bp used s).outputStream = s.outputStream := rfl
@[simp] theorem overlay_depth : (overlay b bp used s).depth = s.depth := rfl

end

/-- An instruction other than a compare and BHOPP neither reads nor writes the flag, the breakpoints and the image size. -/
theorem exec_overlay {i : Instr} {s t : State} (h : exec i s = .next t) (hc : isCompare i = false)
    (hb : ∀ a, i ≠ .bhopp a) (b : Bool) (bp : BitVec 4096) (used : Nat) :
    exec i (overlay b bp used s) = .next (overlay b bp used t) := by
  cases i with
  | lik | ulik | me | mel | se | sel => cases hc
  | bhopp a => exact absurd rfl (hb a)
  | les d =>
    rw [exec_les] at h ⊢
    cases h
    rw [overlay_stdin, overlay_inputPtr]
    cases s.stdin[s.inputPtr]? <;> rfl
  | skriv r =>
    rw [exec_skriv] at h ⊢
    cases h
    rw [overlay_outputStream]
    split_ifs <;> rfl
  | tur a =>
    rw [exec_tur] at h ⊢
    cases h
    rw [overlay_depth]
    split_ifs <;> rfl
  | retur =>
    rw [exec_retur] at h ⊢
    cases h
    rw [overlay_callStack]
    cases s.callStack.getLast? <;> rfl
  | _ => cases h; rfl

/-- Only a compare writes the flag. -/
theorem Effect.flag_eq {i : Instr} {s t : State} (h : Effect i s t) (hc : isCompare i = false) : t.flag = s.flag := by
  cases h with
  | compares b h => simp [h] at hc
  | _ => rfl

/-- A compare does the same whatever the flag was. -/
theorem exec_setFlag_of_compare {i : Instr} (hc : isCompare i = true) (s : State) (b : Bool) :
    exec i (s.setFlag b) = exec i s := by
  obtain ⟨x, y, rfl | rfl | rfl | rfl | rfl | rfl⟩ := isCompare_iff.mp hc <;> rfl

/-- Any other instruction but BHOPP does the same whatever the flag is, and hands it on. -/
theorem exec_setFlag {i : Instr} {s t : State} (h : exec i s = .next t) (hc : isCompare i = false)
    (hb : ∀ a, i ≠ .bhopp a) (b : Bool) : exec i (s.setFlag b) = .next (t.setFlag b) := by
  obtain ⟨-, -, -, hbp, hused⟩ := (effect_of_exec h).sameHostState
  exact (exec_overlay h hc hb b s.breakpoints s.memoryUsed).trans (by rw [← hbp, ← hused]; rfl)

theorem advanced_advance (s : State) : Advanced s s.advance := by
  intro hpc
  rw [State.advance_pc, State.nextPc_toNat, Nat.mod_eq_of_lt hpc]

/-- Settles O45, compares, BHOPP and the rest apart. -/
theorem flagIsWrittenByComparesAndReadByBhopp : Obligations.FlagIsWrittenByComparesAndReadByBhopp := by
  unfold Obligations.FlagIsWrittenByComparesAndReadByBhopp
  refine ⟨rfl, fun i s t h => ?_⟩
  rw [← isCompare_iff, Bool.not_eq_true]
  refine ⟨fun hc b => (exec_setFlag_of_compare hc s b).trans h,
    fun hc => ⟨(effect_of_exec h).flag_eq hc, exec_setFlag h hc⟩, ?_⟩
  rintro a rfl
  rw [exec_bhopp] at h
  refine ⟨fun hf => ?_, fun hf => ?_⟩
  · rw [if_pos hf] at h; cases h; rfl
  · rw [if_neg (by simp [hf])] at h; cases h; exact advanced_advance s

/-! ## Registers and stores -/

theorem Effect.readReg_ne {i : Instr} {s t : State} {d : RegIdx} (h : Effect i s t) (hd : t.readReg d ≠ s.readReg d) :
    destination? i = some d ∨ (∃ a, i = .finn a ∧ (d = 0#4 ∨ d = 1#4)) ∨ i = .les d := by
  cases h with
  | @sets _ _ d' v hdest =>
    left
    by_contra hne
    exact hd ((State.readReg_finishWith ..).trans (if_neg fun e : d = d' => hne (e ▸ hdest)))
  | reads d' b h =>
    refine .inr (.inr ?_)
    by_contra hne
    exact hd ((State.readReg_finishWith ..).trans (if_neg fun e : d = d' => hne (e ▸ rfl)))
  | points a =>
    refine .inr (.inl ⟨a, rfl, ?_⟩)
    by_contra! hne
    exact hd ((State.readReg_writeReg_of_ne _ hne.1 _).trans ((State.readReg_finishWith ..).trans (if_neg hne.2)))
  | _ => exact absurd rfl hd

/-- Settles O46, by the effects of an instruction. -/
theorem registersAreWrittenOnlyAsListed : Obligations.RegistersAreWrittenOnlyAsListed := by
  unfold Obligations.RegistersAreWrittenOnlyAsListed
  intro i s t d h hd
  obtain hdest | hfinn | hles := (effect_of_exec h).readReg_ne hd
  · obtain himm | hreg | hlast | halu := destination?_eq_some.mp hdest
    · exact .inl himm
    · exact .inr (.inl hreg)
    · exact .inr (.inr (.inr (.inl hlast)))
    · exact .inr (.inr (.inr (.inr (.inl halu))))
  · exact .inr (.inr (.inl hfinn))
  · exact .inr (.inr (.inr (.inr (.inr hles))))

theorem Effect.readByte_ne {i : Instr} {s t : State} {a : Addr} (h : Effect i s t) (hne : t.readByte a ≠ s.readByte a) :
    (∃ r, i = .lagr r) ∧ a = s.pointer := by
  cases h with
  | stores r =>
    refine ⟨⟨r, rfl⟩, ?_⟩
    by_contra ha
    exact hne ((State.readByte_writeByte ..).trans (if_neg ha))
  | _ => exact absurd rfl hne

theorem Effect.callStack_ne {i : Instr} {s t : State} (h : Effect i s t) (hne : t.callStack ≠ s.callStack) :
    (∃ a, i = .tur a) ∨ i = .retur := by
  cases h with
  | calls a => exact .inl ⟨a, rfl⟩
  | returns => exact .inr rfl
  | _ => exact absurd rfl hne

theorem Effect.inputPtr_ne {i : Instr} {s t : State} (h : Effect i s t) (hne : t.inputPtr ≠ s.inputPtr) :
    ∃ d, i = .les d := by
  cases h with
  | reads d => exact ⟨d, rfl⟩
  | _ => exact absurd rfl hne

theorem Effect.outputStream_ne {i : Instr} {s t : State} (h : Effect i s t) (hne : t.outputStream ≠ s.outputStream) :
    ∃ r, i = .skriv r := by
  cases h with
  | prints r => exact ⟨r, rfl⟩
  | _ => exact absurd rfl hne

/-- Settles O47, by the effects of an instruction. -/
theorem storesAreReachedOnlyByTheirInstructions : Obligations.StoresAreReachedOnlyByTheirInstructions := by
  unfold Obligations.StoresAreReachedOnlyByTheirInstructions
  intro i s t h
  have he := effect_of_exec h
  exact ⟨fun a => he.readByte_ne, he.callStack_ne, he.inputPtr_ne, he.outputStream_ne⟩

/-! ## The breakpoints and the image size -/

/-- The state with other breakpoints and another image size (R32, R33). -/
def withImage (bp : BitVec 4096) (used : Nat) (s : State) : State := { s with breakpoints := bp, memoryUsed := used }

/-- No instruction reads or writes the breakpoints or the image size. -/
theorem exec_withImage {i : Instr} {s t : State} (h : exec i s = .next t) (bp : BitVec 4096) (used : Nat) :
    exec i (withImage bp used s) = .next (withImage bp used t) := by
  by_cases hc : isCompare i = true
  · obtain ⟨x, y, rfl | rfl | rfl | rfl | rfl | rfl⟩ := isCompare_iff.mp hc <;> (cases h; rfl)
  by_cases hb : ∃ a, i = .bhopp a
  · obtain ⟨a, rfl⟩ := hb
    have hf : (withImage bp used s).flag = s.flag := rfl
    rw [exec_bhopp] at h ⊢
    cases h
    rw [hf]
    split_ifs <;> rfl
  · rw [Bool.not_eq_true] at hc
    have hf := (effect_of_exec h).flag_eq hc
    exact (exec_overlay h hc (not_exists.mp hb) s.flag bp used).trans (by rw [← hf]; rfl)

theorem step_withImage {s t : State} (h : step s = .next t) (bp : BitVec 4096) (used : Nat) :
    step (withImage bp used s) = .next (withImage bp used t) := by
  obtain ⟨hr, rfl⟩ | ⟨hr, hb, rfl⟩ | ⟨hc, reason, hw, rfl⟩ | ⟨hc, i, hw, hi⟩ := step_cases h
  · exact step_of_not_running hr
  · exact step_of_spent hr hb
  all_goals
    have hfetch : (withImage bp used s).countTick.fetchWord = s.fetchWord := rfl
    have hc' : (withImage bp used s).canCycle := hc
    rw [step_of_canCycle hc', fetchExecute, hfetch, hw]
  · rfl
  · exact exec_withImage hi bp used

/-- Settles O49, by induction on the cycles. -/
theorem breakpointsAndImageSizeAreInvisible : Obligations.BreakpointsAndImageSizeAreInvisible := by
  unfold Obligations.BreakpointsAndImageSizeAreInvisible
  intro n s t bp used h
  induction n generalizing s with
  | zero => cases h; rfl
  | succ n ih =>
    obtain ⟨u, hu⟩ := step_answers s
    rw [runSteps_succ n hu] at h
    exact (runSteps_succ n (step_withImage hu bp used)).trans (ih u h)

end Sys2Proof.Machine
end

section
/-! PROOFS. Memory through the state, and the word that the fetch makes of two of its bytes (spec/20_memory.md). -/

namespace Sys2Proof.Machine

/-! ## Reads and writes -/

/-- A second write to an address overwrites the first. -/
@[simp] theorem State.writeByte_writeByte (s : State) (a : Addr) (u v : Byte) :
    (s.writeByte a u).writeByte a v = s.writeByte a v := by
  simp only [State.writeByte, Memory.write_write]

theorem sameMemoryBut_writeByte (s : State) (a : Addr) (v : Byte) : SameMemoryBut [a] s (s.writeByte a v) := by
  intro x hx
  rw [State.readByte_writeByte, if_neg (List.mem_singleton.not.mp hx)]

/-- Settles O13, by what the state reads as after a write. -/
theorem readReturnsTheMostRecentWrite : Obligations.ReadReturnsTheMostRecentWrite := by
  unfold Obligations.ReadReturnsTheMostRecentWrite
  exact fun s a v =>
    ⟨s.readByte_writeByte_same a v, sameMemoryBut_writeByte s a v, s.writeByte_writeByte a v v⟩

/-! ## The fetch -/

/-- The byte at the lower address is the low half of the word (R51). -/
theorem wordOfBytes_toNat (opcode param : Byte) :
    (wordOfBytes opcode param).toNat = opcode.toNat + 256 * param.toNat := by
  rw [wordOfBytes, BitVec.toNat_append, ← Nat.shiftLeft_add_eq_or_of_lt opcode.isLt, Nat.shiftLeft_eq, Nat.mul_comm,
    Nat.add_comm]

theorem State.fetchWord_toNat (s : State) :
    s.fetchWord.toNat = (s.readByte s.pc).toNat + 256 * (s.readByte (s.pc + 1#12)).toNat :=
  wordOfBytes_toNat ..

/-- The low byte of the fetched word is the byte at `pc`. -/
theorem State.fetchWord_toNat_mod (s : State) : s.fetchWord.toNat % 256 = (s.readByte s.pc).toNat := by
  rw [s.fetchWord_toNat, Nat.add_mul_mod_self_left, Nat.mod_eq_of_lt (BitVec.isLt _)]

/-- The high byte of the fetched word is the byte after it, at the wrapped address (R55). -/
theorem State.fetchWord_toNat_div (s : State) :
    s.fetchWord.toNat / 256 = (s.readByte (s.pc + 1#12)).toNat := by
  rw [s.fetchWord_toNat, Nat.add_mul_div_left _ _ (by decide), Nat.div_eq_of_lt (BitVec.isLt _), Nat.zero_add]

/-- Settles O23, by the word as a number; `pc + 1` overflows at 0xFFF only. -/
theorem fetchIsLittleEndianAndWraps : Obligations.FetchIsLittleEndianAndWraps := by
  unfold Obligations.FetchIsLittleEndianAndWraps
  intro s
  refine ⟨fun hpc => ⟨s.pc + 1#12, ?_, s.fetchWord_toNat⟩, fun hpc => ?_⟩
  · rw [BitVec.toNat_add, BitVec.toNat_ofNat, Nat.mod_eq_of_lt (by omega)]
  · have hwrap : s.pc + 1#12 = 0x000#12 := by rw [hpc]; decide
    rw [s.fetchWord_toNat, hwrap, hpc]

/-- Settles O25: the fetch reads memory afresh, so it sees the byte that LAGR stored. -/
theorem storeIsSeenByTheFetch : Obligations.StoreIsSeenByTheFetch := by
  unfold Obligations.StoreIsSeenByTheFetch
  intro r s t u h hu
  rw [exec_lagr] at h
  cases h
  rw [State.readByte_writeByte_same] at hu
  refine ⟨fun hlow => ?_, fun hhigh => ?_⟩
  · rw [u.fetchWord_toNat_mod, hlow, hu]
  · rw [u.fetchWord_toNat_div, hhigh, hu]

end Sys2Proof.Machine
end

section
/-! PROOFS. The codec (spec/30_encoding.md): what the encoder writes the decoder reads, which row of the opcode table a
word has, which words are illegal, and the words by formula; then the written form of an instruction, the assembled
image, and the cycle that fetches an illegal word. -/

namespace Sys2Proof

open Machine

/-! ## The round trip -/

/-- The decoder reads back the class, the sub-code and the operands that the encoder put in the word. -/
theorem classify_encode (i : Instr) : classify (encode i) = .ok i := by
  cases i with
  | stopp | retur | nope => rfl
  | settImm d imm => simp [encode, classify, fields_of_immediate]
  | settReg d r => simp [encode, classify, fields_of_nibbles]
  | finn | hopp | bhopp | tur => simp [encode, encodeAddr, classify, fields_of_address]
  | last | lagr => simp [encode, encodeOne, classify, classifyMemory, fields_of_nibbles]
  | les | skriv => simp [encode, encodeOne, classify, classifyInOut, fields_of_nibbles]
  | og | eller | xeller | vskift | hskift | pluss | minus =>
    simp [encode, encodeTwo, classify, classifyAlu, fields_of_nibbles]
  | lik | ulik | me | mel | se | sel => simp [encode, encodeTwo, classify, classifyCompare, fields_of_nibbles]

theorem encode_injective {i j : Instr} (h : encode i = encode j) : i = j := by
  simpa [classify_encode] using congrArg classify h

theorem decodeBytes_encodeBytes (i : Instr) (rest : List Byte) :
    decodeBytes (encodeBytes i ++ rest) = .ok (i, rest) := by
  simp only [encodeBytes, bytesOfWord, List.cons_append, List.nil_append, decodeBytes, word_of_bytes_of_word,
    classify_encode]

/-- Settles O1, format by format. -/
theorem encodeThenClassifyRoundTrip : Obligations.EncodeThenClassifyRoundTrip := by
  unfold Obligations.EncodeThenClassifyRoundTrip
  exact fun i rest => ⟨classify_encode i, decodeBytes_encodeBytes i rest⟩

/-! ## The fields of a word -/

theorem operationClass_toNat (w : Word16) : (decodeFields w).operationClass.toNat = w.toNat % 16 :=
  BitVec.extractLsb'_toNat 0 4 w

theorem operation_toNat (w : Word16) : (decodeFields w).operation.toNat = w.toNat / 16 % 16 := by
  rw [decodeFields, BitVec.extractLsb'_toNat, Nat.shiftRight_eq_div_pow]

theorem nibble_eq_ofNat {x : Nibble} {n : Nat} (h : x.toNat = n) : x = BitVec.ofNat 4 n := by
  rw [← h, BitVec.ofNat_toNat, BitVec.setWidth_eq]

theorem address_append_class (w : Word16) : (decodeFields w).address ++ (decodeFields w).operationClass = w :=
  (BitVec.extractLsb'_append_extractLsb'_eq_extractLsb' (start₁ := 0) (len₁ := 4) (len₂ := 12) rfl).trans
    (extract_all w)

theorem value_append_operation (w : Word16) :
    (decodeFields w).value ++ (decodeFields w).operation = (decodeFields w).address :=
  BitVec.extractLsb'_append_extractLsb'_eq_extractLsb' (start₁ := 4) (len₁ := 4) (len₂ := 8) rfl

theorem argument2_append_argument1 (w : Word16) :
    (decodeFields w).argument2 ++ (decodeFields w).argument1 = (decodeFields w).value :=
  BitVec.extractLsb'_append_extractLsb'_eq_extractLsb' (start₁ := 8) (len₁ := 4) (len₂ := 4) rfl

/-- A word is its fields, in format I (R72, R73). -/
theorem immediate_of_fields (w : Word16) :
    (decodeFields w).value ++ (decodeFields w).operation ++ (decodeFields w).operationClass = w := by
  rw [value_append_operation, address_append_class]

/-- A word is its four nibbles (R72). -/
theorem nibbles_of_fields (w : Word16) : (decodeFields w).argument2 ++ (decodeFields w).argument1 ++
    (decodeFields w).operation ++ (decodeFields w).operationClass = w := by
  rw [argument2_append_argument1, immediate_of_fields]

/-- The class of a word, all other bits 0. -/
theorem and_classMask (w : Word16) : w &&& 0x000F#16 = encodeNone (decodeFields w).operationClass := by
  calc w &&& 0x000F#16
    _ = ((decodeFields w).address ++ (decodeFields w).operationClass) &&& (0#12 ++ BitVec.allOnes 4) := by
      rw [address_append_class]; rfl
    _ = _ := by simp only [BitVec.and_append, BitVec.and_zero, BitVec.and_allOnes]; rfl

/-- The class and the sub-code of a word, all other bits 0. -/
theorem and_subMask (w : Word16) :
    w &&& 0x00FF#16 = 0#8 ++ (decodeFields w).operation ++ (decodeFields w).operationClass := by
  calc w &&& 0x00FF#16
    _ = ((decodeFields w).value ++ (decodeFields w).operation ++ (decodeFields w).operationClass) &&&
        (0#8 ++ BitVec.allOnes 4 ++ BitVec.allOnes 4) := by rw [immediate_of_fields]; rfl
    _ = _ := by simp only [BitVec.and_append, BitVec.and_zero, BitVec.and_allOnes]

/-- A word of format R without its don't-care bits. -/
theorem and_oneMask (w : Word16) : w &&& ~~~0xF000#16 =
    encodeOne (decodeFields w).operationClass (decodeFields w).operation (decodeFields w).argument1 := by
  calc w &&& ~~~0xF000#16
    _ = ((decodeFields w).argument2 ++ (decodeFields w).argument1 ++ (decodeFields w).operation ++
          (decodeFields w).operationClass) &&&
        (0#4 ++ BitVec.allOnes 4 ++ BitVec.allOnes 4 ++ BitVec.allOnes 4) := by rw [nibbles_of_fields]; rfl
    _ = _ := by simp only [BitVec.and_append, BitVec.and_zero, BitVec.and_allOnes]; rfl

theorem and_not_zero (w : Word16) : w &&& ~~~0x0000#16 = w := by
  rw [BitVec.not_zero, BitVec.and_allOnes]

/-! ## The row of a legal word -/

/-- The row that the table has for a word and the instruction it stands for: it selects the word, its mnemonic is the
instruction's, and without its don't-care bits the word is the canonical one (R78, R81, R84). -/
structure RowFor (w : Word16) (i : Instr) (row : OpcodeRow) : Prop where
  mem : row ∈ opcodeTable
  mnemonic_eq : row.mnemonic = i.toSource.mnemonic
  selects : w &&& row.mask = row.selects
  canonical : w &&& ~~~row.dontCare = encode i

section
variable {w : Word16} {i : Instr} {c n : Nat} {dontCare : Word16}

/-- An instruction selected by its class alone. -/
theorem exists_classRow (m : Mnemonic) (hc : (decodeFields w).operationClass.toNat = c)
    (hrow : classRow m (encodeNone (BitVec.ofNat 4 c)) dontCare ∈ opcodeTable) (hm : m = i.toSource.mnemonic)
    (hi : w &&& ~~~dontCare = encode i) : ∃ row, RowFor w i row :=
  ⟨_, hrow, hm, by rw [← nibble_eq_ofNat hc]; exact and_classMask w, hi⟩

/-- An instruction without operands. -/
theorem exists_noneRow (m : Mnemonic) (hc : (decodeFields w).operationClass.toNat = c)
    (hrow : classRow m (encodeNone (BitVec.ofNat 4 c)) 0xFFF0#16 ∈ opcodeTable) (hm : m = i.toSource.mnemonic)
    (hi : encodeNone (BitVec.ofNat 4 c) = encode i) : ∃ row, RowFor w i row :=
  exists_classRow m hc hrow hm (by rw [← hi, ← nibble_eq_ofNat hc]; exact and_classMask w)

/-- An instruction with an address. -/
theorem exists_addrRow (m : Mnemonic) (hc : (decodeFields w).operationClass.toNat = c)
    (hrow : classRow m (encodeNone (BitVec.ofNat 4 c)) 0x0000#16 ∈ opcodeTable) (hm : m = i.toSource.mnemonic)
    (hi : encodeAddr (BitVec.ofNat 4 c) (decodeFields w).address = encode i) : ∃ row, RowFor w i row :=
  exists_classRow m hc hrow hm
    (by rw [← hi, ← nibble_eq_ofNat hc, and_not_zero]; exact (address_append_class w).symm)

/-- An instruction selected by class and sub-code. -/
theorem exists_subRow (m : Mnemonic) (hc : (decodeFields w).operationClass.toNat = c)
    (hn : (decodeFields w).operation.toNat = n)
    (hrow : subRow m (0#8 ++ BitVec.ofNat 4 n ++ BitVec.ofNat 4 c) dontCare ∈ opcodeTable)
    (hm : m = i.toSource.mnemonic) (hi : w &&& ~~~dontCare = encode i) : ∃ row, RowFor w i row :=
  ⟨_, hrow, hm, by rw [← nibble_eq_ofNat hn, ← nibble_eq_ofNat hc]; exact and_subMask w, hi⟩

/-- An instruction with a sub-code and one register. -/
theorem exists_oneRow (m : Mnemonic) (hc : (decodeFields w).operationClass.toNat = c)
    (hn : (decodeFields w).operation.toNat = n)
    (hrow : subRow m (0#8 ++ BitVec.ofNat 4 n ++ BitVec.ofNat 4 c) 0xF000#16 ∈ opcodeTable)
    (hm : m = i.toSource.mnemonic)
    (hi : encodeOne (BitVec.ofNat 4 c) (BitVec.ofNat 4 n) (decodeFields w).argument1 = encode i) :
    ∃ row, RowFor w i row :=
  exists_subRow m hc hn hrow hm (by rw [← hi, ← nibble_eq_ofNat hc, ← nibble_eq_ofNat hn]; exact and_oneMask w)

/-- An instruction with a sub-code and two registers. -/
theorem exists_twoRow (m : Mnemonic) (hc : (decodeFields w).operationClass.toNat = c)
    (hn : (decodeFields w).operation.toNat = n)
    (hrow : subRow m (0#8 ++ BitVec.ofNat 4 n ++ BitVec.ofNat 4 c) 0x0000#16 ∈ opcodeTable)
    (hm : m = i.toSource.mnemonic)
    (hi : encodeTwo (BitVec.ofNat 4 c) (BitVec.ofNat 4 n) (decodeFields w).argument1 (decodeFields w).argument2 =
      encode i) :
    ∃ row, RowFor w i row :=
  exists_subRow m hc hn hrow hm
    (by rw [← hi, ← nibble_eq_ofNat hc, ← nibble_eq_ofNat hn, and_not_zero]; exact (nibbles_of_fields w).symm)

theorem exists_row_of_classifyMemory (hc : (decodeFields w).operationClass.toNat = 4)
    (h : classifyMemory (decodeFields w) = .ok i) : ∃ row, RowFor w i row := by
  unfold classifyMemory at h
  split at h
  · next hn => cases h; exact exists_oneRow .last hc hn (by decide) rfl rfl
  · next hn => cases h; exact exists_oneRow .lagr hc hn (by decide) rfl rfl
  · cases h

theorem exists_row_of_classifyAlu (hc : (decodeFields w).operationClass.toNat = 5)
    (h : classifyAlu (decodeFields w) = .ok i) : ∃ row, RowFor w i row := by
  unfold classifyAlu at h
  split at h
  · next hn => cases h; exact exists_twoRow .og hc hn (by decide) rfl rfl
  · next hn => cases h; exact exists_twoRow .eller hc hn (by decide) rfl rfl
  · next hn => cases h; exact exists_twoRow .xeller hc hn (by decide) rfl rfl
  · next hn => cases h; exact exists_twoRow .vskift hc hn (by decide) rfl rfl
  · next hn => cases h; exact exists_twoRow .hskift hc hn (by decide) rfl rfl
  · next hn => cases h; exact exists_twoRow .pluss hc hn (by decide) rfl rfl
  · next hn => cases h; exact exists_twoRow .minus hc hn (by decide) rfl rfl
  · cases h

theorem exists_row_of_classifyInOut (hc : (decodeFields w).operationClass.toNat = 6)
    (h : classifyInOut (decodeFields w) = .ok i) : ∃ row, RowFor w i row := by
  unfold classifyInOut at h
  split at h
  · next hn => cases h; exact exists_oneRow .les hc hn (by decide) rfl rfl
  · next hn => cases h; exact exists_oneRow .skriv hc hn (by decide) rfl rfl
  · cases h

theorem exists_row_of_classifyCompare (hc : (decodeFields w).operationClass.toNat = 7)
    (h : classifyCompare (decodeFields w) = .ok i) : ∃ row, RowFor w i row := by
  unfold classifyCompare at h
  split at h
  · next hn => cases h; exact exists_twoRow .lik hc hn (by decide) rfl rfl
  · next hn => cases h; exact exists_twoRow .ulik hc hn (by decide) rfl rfl
  · next hn => cases h; exact exists_twoRow .me hc hn (by decide) rfl rfl
  · next hn => cases h; exact exists_twoRow .mel hc hn (by decide) rfl rfl
  · next hn => cases h; exact exists_twoRow .se hc hn (by decide) rfl rfl
  · next hn => cases h; exact exists_twoRow .sel hc hn (by decide) rfl rfl
  · cases h

/-- A legal word has a row (R78). -/
theorem exists_row_of_classify (h : classify w = .ok i) : ∃ row, RowFor w i row := by
  simp only [classify] at h
  split at h
  · next hc => cases h; exact exists_noneRow .stopp hc (by decide) rfl rfl
  · next hc =>
    cases h
    refine exists_classRow (dontCare := 0x0000#16) .sett hc (by decide) rfl ?_
    have hw := immediate_of_fields w
    rw [nibble_eq_ofNat hc] at hw
    exact (and_not_zero w).trans hw.symm
  · next hc =>
    cases h
    refine exists_classRow (dontCare := 0xF000#16) .sett hc (by decide) rfl ?_
    have hw := and_oneMask w
    rw [nibble_eq_ofNat hc] at hw
    exact hw
  · next hc => cases h; exact exists_addrRow .finn hc (by decide) rfl rfl
  · next hc => exact exists_row_of_classifyMemory hc h
  · next hc => exact exists_row_of_classifyAlu hc h
  · next hc => exact exists_row_of_classifyInOut hc h
  · next hc => exact exists_row_of_classifyCompare hc h
  · next hc => cases h; exact exists_addrRow .hopp hc (by decide) rfl rfl
  · next hc => cases h; exact exists_addrRow .bhopp hc (by decide) rfl rfl
  · next hc => cases h; exact exists_addrRow .tur hc (by decide) rfl rfl
  · next hc => cases h; exact exists_noneRow .retur hc (by decide) rfl rfl
  · next hc => cases h; exact exists_noneRow .nope hc (by decide) rfl rfl
  · cases h

end

/-- Two rows of the table differ in a bit that both test. -/
theorem opcodeTable_rows_disjoint : ∀ r ∈ opcodeTable, ∀ row ∈ opcodeTable,
    r = row ∨ r.selects &&& row.mask ≠ row.selects &&& r.mask := by decide

/-- No two rows of the table select the same word. -/
theorem row_unique {w : Word16} {r row : OpcodeRow} (hr : r ∈ opcodeTable) (hrow : row ∈ opcodeTable)
    (hrw : w &&& r.mask = r.selects) (hroww : w &&& row.mask = row.selects) : r = row := by
  refine (opcodeTable_rows_disjoint r hr row hrow).resolve_right fun hne => hne ?_
  rw [← hrw, ← hroww, BitVec.and_assoc, BitVec.and_assoc, BitVec.and_comm r.mask]

theorem rowOfWord_eq_some {w : Word16} {row : OpcodeRow} (h : rowOfWord w = some row) :
    row ∈ opcodeTable ∧ w &&& row.mask = row.selects :=
  ⟨List.mem_of_find?_eq_some h, by simpa using List.find?_some h⟩

theorem RowFor.rowOfWord_eq {w : Word16} {i : Instr} {row : OpcodeRow} (h : RowFor w i row) :
    rowOfWord w = some row := by
  cases hf : rowOfWord w with
  | none => exact absurd h.selects (by simpa using List.find?_eq_none.mp hf row h.mem)
  | some r =>
    obtain ⟨hr, hrw⟩ := rowOfWord_eq_some hf
    rw [row_unique hr h.mem hrw h.selects]

/-- Masking bits off changes nothing exactly when none of them is set. -/
theorem and_not_eq_self_iff (w m : Word16) : w &&& ~~~m = w ↔ w &&& m = 0#16 := by
  constructor
  · intro h
    rw [← h, BitVec.and_assoc, BitVec.not_and_self]; exact BitVec.and_zero
  · intro h
    calc w &&& ~~~m
      _ = (w &&& m) ||| (w &&& ~~~m) := by rw [h, BitVec.zero_or]
      _ = w := by rw [← BitVec.and_or_distrib_left, BitVec.or_not_self, BitVec.and_allOnes]

/-- Settles O2: the canonical word of the row is the word with the don't-care bits masked off. -/
theorem classifyThenEncodeIffCanonical : Obligations.ClassifyThenEncodeIffCanonical := by
  unfold Obligations.ClassifyThenEncodeIffCanonical
  intro w i h
  obtain ⟨row, hrow⟩ := exists_row_of_classify h
  exact ⟨row, hrow.rowOfWord_eq, by rw [← hrow.canonical, and_not_eq_self_iff]⟩

/-! ## Illegal words -/

/-- How many sub-codes a class has; 16 where any value of the field is legal (R77). -/
def subcodeCount : Nat → Nat
  | 4 => 2
  | 5 => 7
  | 6 => 2
  | 7 => 6
  | _ => 16

theorem subcodeCount_le_iff {c n : Nat} (hn : n < 16) : subcodeCount c ≤ n ↔
    (c = 4 ∧ 2 ≤ n) ∨ (c = 5 ∧ 7 ≤ n) ∨ (c = 6 ∧ 2 ≤ n) ∨ (c = 7 ∧ 6 ≤ n) := by
  unfold subcodeCount
  split <;> grind

section
variable {f : Fields} {reason : IllegalReason}

theorem classifyMemory_eq_error_iff : classifyMemory f = .error reason ↔
    2 ≤ f.operation.toNat ∧ .unknownSubcode f.operationClass f.operation = reason := by
  unfold classifyMemory
  split <;> grind

theorem classifyAlu_eq_error_iff : classifyAlu f = .error reason ↔
    7 ≤ f.operation.toNat ∧ .unknownSubcode f.operationClass f.operation = reason := by
  unfold classifyAlu
  split <;> grind

theorem classifyInOut_eq_error_iff : classifyInOut f = .error reason ↔
    2 ≤ f.operation.toNat ∧ .unknownSubcode f.operationClass f.operation = reason := by
  unfold classifyInOut
  split <;> grind

theorem classifyCompare_eq_error_iff : classifyCompare f = .error reason ↔
    6 ≤ f.operation.toNat ∧ .unknownSubcode f.operationClass f.operation = reason := by
  unfold classifyCompare
  split <;> grind

end

/-- Which words are illegal, and with which reason (R80, R83). -/
theorem classify_eq_error_iff {w : Word16} {reason : IllegalReason} : classify w = .error reason ↔
    (13 ≤ w.toNat % 16 ∧ .unknownClass (decodeFields w).operationClass = reason) ∨
    (subcodeCount (w.toNat % 16) ≤ w.toNat / 16 % 16 ∧
      .unknownSubcode (decodeFields w).operationClass (decodeFields w).operation = reason) := by
  have hsub : ¬ 16 ≤ w.toNat / 16 % 16 := by omega
  rw [← operationClass_toNat]
  rw [← operation_toNat] at hsub ⊢
  unfold classify
  dsimp only
  split
  case h_5 hc => simp [hc, classifyMemory_eq_error_iff, subcodeCount]
  case h_6 hc => simp [hc, classifyAlu_eq_error_iff, subcodeCount]
  case h_7 hc => simp [hc, classifyInOut_eq_error_iff, subcodeCount]
  case h_8 hc => simp [hc, classifyCompare_eq_error_iff, subcodeCount]
  case h_14 =>
    have hc : 13 ≤ (decodeFields w).operationClass.toNat := by grind
    have hn : subcodeCount (decodeFields w).operationClass.toNat = 16 := by grind [subcodeCount]
    simp [hc, hn, hsub]
  all_goals next hc => simp [hc, subcodeCount, hsub]

/-- Settles O5, the two reasons apart. -/
theorem illegalWordsAreThoseOfTheTable : Obligations.IllegalWordsAreThoseOfTheTable := by
  unfold Obligations.IllegalWordsAreThoseOfTheTable
  intro w
  refine ⟨by simp [classify_eq_error_iff], ?_⟩
  rw [← subcodeCount_le_iff (Nat.mod_lt _ (by decide))]
  simp [classify_eq_error_iff]

/-! ## Selection by the opcode table -/

/-- Every row tests a class below 13, alone or with a sub-code among those of the class. -/
theorem opcodeTable_rows_legal : ∀ row ∈ opcodeTable,
    (row.mask = 0x000F#16 ∧ row.selects.toNat < 13 ∧ subcodeCount row.selects.toNat = 16) ∨
    (row.mask = 0x00FF#16 ∧ row.selects.toNat % 16 < 13 ∧
      row.selects.toNat / 16 < subcodeCount (row.selects.toNat % 16)) := by decide

/-- What a mask of the low `k` bits keeps of a word. -/
theorem selects_toNat {w mask selects : Word16} {k : Nat} (hm : mask.toNat = 2 ^ k - 1) (hw : w &&& mask = selects) :
    selects.toNat = w.toNat % 2 ^ k := by
  rw [← hw, BitVec.toNat_and, hm, Nat.and_two_pow_sub_one_eq_mod]

/-- No row selects an illegal word (R78). -/
theorem not_selected_of_illegal {w : Word16} {reason : IllegalReason} (h : classify w = .error reason) :
    ∀ row ∈ opcodeTable, w &&& row.mask ≠ row.selects := by
  intro row hrow hw
  have hillegal := classify_eq_error_iff.mp h
  obtain ⟨hm, hclass, hcount⟩ | ⟨hm, hclass, hcount⟩ := opcodeTable_rows_legal row hrow
  · have hs : row.selects.toNat = w.toNat % 16 := selects_toNat (k := 4) (by rw [hm]; rfl) hw
    rw [hs] at hclass hcount
    obtain ⟨hc, -⟩ | ⟨hn, -⟩ := hillegal <;> omega
  · have hs : row.selects.toNat = w.toNat % 256 := selects_toNat (k := 8) (by rw [hm]; rfl) hw
    have hlow : w.toNat % 256 % 16 = w.toNat % 16 := by omega
    rw [hs, hlow] at hclass hcount
    obtain ⟨hc, -⟩ | ⟨hn, -⟩ := hillegal <;> omega

/-- A word that a row of the table selects is legal, and the row is its instruction's. -/
theorem rowFor_of_selects {w : Word16} {row : OpcodeRow} (hmem : row ∈ opcodeTable)
    (hw : w &&& row.mask = row.selects) : ∃ i, classify w = .ok i ∧ RowFor w i row := by
  cases h : classify w with
  | error reason => exact absurd hw (not_selected_of_illegal h row hmem)
  | ok i =>
    obtain ⟨r, hr⟩ := exists_row_of_classify h
    obtain rfl := row_unique hr.mem hmem hr.selects hw
    exact ⟨i, rfl, hr⟩

/-- Settles O4: a legal word by the row of its instruction and no other, an illegal word by none. -/
theorem wordsAreSelectedByOneRowOfTheOpcodeTable : Obligations.WordsAreSelectedByOneRowOfTheOpcodeTable := by
  unfold Obligations.WordsAreSelectedByOneRowOfTheOpcodeTable
  intro w
  refine ⟨fun i h => ?_, fun reason h => not_selected_of_illegal h⟩
  obtain ⟨row, hrow⟩ := exists_row_of_classify h
  refine ⟨row, hrow.mem, hrow.mnemonic_eq, fun r hr => ⟨fun hw => row_unique hr hrow.mem hw hrow.selects, ?_⟩⟩
  rintro rfl
  exact hrow.selects

/-- The bits a row tests are not among its don't-care bits. -/
theorem opcodeTable_mask_cared : ∀ row ∈ opcodeTable, ~~~row.dontCare &&& row.mask = row.mask := by decide

/-- Settles O3: both words are selected by the row, so both instructions have the same canonical word. -/
theorem dontCareBitsAreIgnored : Obligations.DontCareBitsAreIgnored := by
  unfold Obligations.DontCareBitsAreIgnored
  intro w v row hrow hwv
  obtain ⟨hmem, hw⟩ := rowOfWord_eq_some hrow
  have hv : v &&& row.mask = row.selects := by
    rw [← hw, ← opcodeTable_mask_cared row hmem, ← BitVec.and_assoc, ← BitVec.and_assoc, hwv]
  obtain ⟨i, hi, hri⟩ := rowFor_of_selects hmem hw
  obtain ⟨j, hj, hrj⟩ := rowFor_of_selects hmem hv
  have hji : j = i := encode_injective (by rw [← hri.canonical, ← hrj.canonical, hwv])
  rw [hi, hj, hji]

/-- Settles O8, by evaluation of the classifier on the words. -/
theorem wordsOfTheSpecDecode : Obligations.WordsOfTheSpecDecode := by
  unfold Obligations.WordsOfTheSpecDecode
  decide

/-! ## Fields and words as numbers -/

/-- A field that reaches the top of the word needs no mask. -/
theorem toNat_extract_top (w : Word16) {start len : Nat} (h : start + len = 16) :
    (w.extractLsb' start len).toNat = w.toNat >>> start := by
  rw [BitVec.extractLsb'_toNat, Nat.shiftRight_eq_div_pow, Nat.mod_eq_of_lt]
  exact Nat.div_lt_of_lt_mul (by rw [← Nat.pow_add, h]; exact w.isLt)

theorem toNat_extract_nibble (w : Word16) (start : Nat) :
    (w.extractLsb' start 4).toNat = (w.toNat >>> start) &&& 0xF :=
  (BitVec.extractLsb'_toNat start 4 w).trans (Nat.and_two_pow_sub_one_eq_mod _ 4).symm

/-- Settles O6: each field is cut out of the word at its offset. -/
theorem fieldsAreMaskedAndShifted : Obligations.FieldsAreMaskedAndShifted := by
  unfold Obligations.FieldsAreMaskedAndShifted
  intro opcode param w f
  refine ⟨?_, toNat_extract_nibble w 0, toNat_extract_nibble w 4, toNat_extract_top w (start := 4) rfl,
    toNat_extract_top w (start := 8) rfl, toNat_extract_nibble w 8, toNat_extract_nibble w 12⟩
  rw [Nat.lor_comm]
  exact BitVec.toNat_append param opcode

section
variable {k l m n : Nat} (x : BitVec k) (y : BitVec l) (z : BitVec m) (u : BitVec n)

theorem toNat_append_three : (x ++ y ++ z).toNat = (x.toNat <<< (l + m)) ||| (y.toNat <<< m) ||| z.toNat := by
  rw [BitVec.toNat_append, BitVec.toNat_append, Nat.shiftLeft_or_distrib, ← Nat.shiftLeft_add]

theorem toNat_append_four : (x ++ y ++ z ++ u).toNat =
    (x.toNat <<< (l + m + n)) ||| (y.toNat <<< (m + n)) ||| (z.toNat <<< n) ||| u.toNat := by
  rw [BitVec.toNat_append, toNat_append_three, Nat.shiftLeft_or_distrib, Nat.shiftLeft_or_distrib,
    ← Nat.shiftLeft_add, ← Nat.shiftLeft_add]

end

theorem encodeAddr_toNat (c : Nibble) (a : Addr) : (encodeAddr c a).toNat = (a.toNat <<< 4) ||| c.toNat :=
  BitVec.toNat_append a c

theorem encodeTwo_toNat (c sub : Nibble) (d r : RegIdx) : (encodeTwo c sub d r).toNat =
    (r.toNat <<< 12) ||| (d.toNat <<< 8) ||| (sub.toNat <<< 4) ||| c.toNat :=
  toNat_append_four r d sub c

theorem encodeOne_toNat (c sub : Nibble) (r : RegIdx) :
    (encodeOne c sub r).toNat = (r.toNat <<< 8) ||| (sub.toNat <<< 4) ||| c.toNat := by
  have h := encodeTwo_toNat c sub r 0#4
  rwa [BitVec.toNat_zero, Nat.zero_shiftLeft, Nat.zero_or] at h

/-- The bytes of an instruction, `w[7:0]` then `w[15:8]`. -/
theorem byteValues_eq (i : Instr) : byteValues i = [(encode i).toNat % 256, (encode i).toNat / 256] := by
  have hlow : ((encode i).extractLsb' 0 8).toNat = (encode i).toNat % 256 := BitVec.extractLsb'_toNat 0 8 _
  have hhigh : ((encode i).extractLsb' 8 8).toNat = (encode i).toNat / 256 :=
    (toNat_extract_top (encode i) rfl).trans (Nat.shiftRight_eq_div_pow _ 8)
  rw [byteValues, encodeBytes, bytesOfWord, List.map_cons, List.map_cons, List.map_nil, hlow, hhigh]

/-- Settles O7, format by format. -/
theorem canonicalWordsByFormula : Obligations.CanonicalWordsByFormula := by
  unfold Obligations.CanonicalWordsByFormula
  refine ⟨byteValues_eq, rfl, rfl, rfl, ?imm, ?addr, ?one, ?two⟩
  case imm => exact fun d imm => toNat_append_three imm d 0x1#4
  case addr => exact fun a => ⟨encodeAddr_toNat .., encodeAddr_toNat .., encodeAddr_toNat .., encodeAddr_toNat ..⟩
  case one =>
    intro x
    simp [encode, encodeOne_toNat, Nat.or_assoc]
  case two =>
    intro d s
    refine ⟨encodeOne_toNat .., ?_, ?_⟩
    all_goals
      simp only [List.map_cons, List.map_nil, encode, encodeTwo_toNat]
      rfl

end Sys2Proof

namespace Sys2Proof.Machine

/-! ## Written instructions -/

theorem isReg_iff {o : Operand} : o.isReg = true ↔ ∃ n, o = .reg n ∧ n < Config.regCount := by
  cases o <;> simp

theorem isImm_iff {o : Operand} : o.isImm = true ↔ ∃ n, o = .num n ∧ n < 2 ^ Config.regWidth := by
  cases o <;> simp

theorem isAddr_iff {o : Operand} : o.isAddr = true ↔ ∃ n, o = .num n ∧ n < 2 ^ Config.addrWidth := by
  cases o <;> simp

theorem regIdx_lt (r : RegIdx) : r.toNat < Config.regCount := r.isLt

/-- What a well-formed written instruction looks like, shape by shape (R90). -/
theorem wf_cases {src : SourceInstr} (h : src.wf = true) :
    (src.mnemonic.shape = .none ∧ src.operands = []) ∨
    (src.mnemonic.shape = .sett ∧
      ∃ d, (∃ v, src.operands = [.reg d, .num v]) ∨ ∃ r, src.operands = [.reg d, .reg r]) ∨
    (src.mnemonic.shape = .addr ∧ ∃ a, src.operands = [.num a]) ∨
    (src.mnemonic.shape = .oneReg ∧ ∃ r, src.operands = [.reg r]) ∨
    (src.mnemonic.shape = .twoRegs ∧ ∃ d r, src.operands = [.reg d, .reg r]) := by
  unfold SourceInstr.wf at h
  split at h
  · next hs ho => exact .inl ⟨hs, ho⟩
  · next hs ho =>
    rw [Bool.and_eq_true, Bool.or_eq_true, isReg_iff, isImm_iff, isReg_iff] at h
    obtain ⟨⟨d, rfl, -⟩, ⟨v, rfl, -⟩ | ⟨r, rfl, -⟩⟩ := h
    · exact .inr (.inl ⟨hs, d, .inl ⟨v, ho⟩⟩)
    · exact .inr (.inl ⟨hs, d, .inr ⟨r, ho⟩⟩)
  · next hs ho =>
    obtain ⟨a, rfl, -⟩ := isAddr_iff.mp h
    exact .inr (.inr (.inl ⟨hs, a, ho⟩))
  · next hs ho =>
    obtain ⟨r, rfl, -⟩ := isReg_iff.mp h
    exact .inr (.inr (.inr (.inl ⟨hs, r, ho⟩)))
  · next hs ho =>
    rw [Bool.and_eq_true, isReg_iff, isReg_iff] at h
    obtain ⟨⟨d, rfl, -⟩, r, rfl, -⟩ := h
    exact .inr (.inr (.inr (.inr ⟨hs, d, r, ho⟩)))
  · cases h

/-- A well-formed written instruction stands for an instruction (R84). -/
theorem toInstr?_of_wf {src : SourceInstr} (h : src.wf = true) : ∃ i, src.toInstr? = some i := by
  have hcases := wf_cases h
  obtain ⟨m, operands⟩ := src
  rw [SourceInstr.toInstr?, if_pos h]
  obtain ⟨hs, rfl⟩ | ⟨hs, d, ⟨v, rfl⟩ | ⟨r, rfl⟩⟩ | ⟨hs, a, rfl⟩ | ⟨hs, r, rfl⟩ | ⟨hs, d, r, rfl⟩ := hcases
  -- only the mnemonics of the shape remain, and for each the operands are those of its arm
  all_goals cases m <;> cases hs <;> exact ⟨_, rfl⟩

theorem toSource_wf (i : Instr) : i.toSource.wf = true := by
  cases i with
  | stopp | retur | nope => rfl
  | finn a | hopp a | bhopp a | tur a => simp [Instr.toSource, SourceInstr.wf, Mnemonic.shape, a.isLt]
  | settImm d imm => simp [Instr.toSource, SourceInstr.wf, Mnemonic.shape, regIdx_lt, imm.isLt]
  | _ => simp [Instr.toSource, SourceInstr.wf, Mnemonic.shape, regIdx_lt]

theorem toInstr?_toSource (i : Instr) : i.toSource.toInstr? = some i := by
  rw [SourceInstr.toInstr?, if_pos (toSource_wf i)]
  cases i <;> simp [Instr.toSource]

/-- Settles O56, by the shape of the operands. -/
theorem writtenInstructionsEncodeWhenWellFormed : Obligations.WrittenInstructionsEncodeWhenWellFormed := by
  unfold Obligations.WrittenInstructionsEncodeWhenWellFormed
  refine ⟨fun src => ⟨?_, toInstr?_of_wf⟩, fun i => ⟨toSource_wf i, toInstr?_toSource i⟩⟩
  rintro ⟨i, hi⟩
  by_contra hwf
  rw [SourceInstr.toInstr?, if_neg hwf] at hi
  cases hi

/-! ## The assembled image -/

theorem assemble_ok {source : Text} {image : List Byte} (h : assemble source = .ok image) :
    ∃ lines labels bytes, parseLines 1 (source.splitOn '\n') = .ok lines ∧ bindLabels 1 0 [] lines = .ok labels ∧
      emitLines labels 1 lines = .ok bytes ∧ image = Config.magic ++ bytes := by
  unfold assemble at h
  split at h
  · cases h
  split at h
  · cases h
  split at h
  · cases h
  · next hlines _ _ hlabels _ _ hbytes =>
    cases h
    exact ⟨_, _, _, hlines, hlabels, hbytes, rfl⟩

/-- A label's address is the number of bytes emitted before its line (R88). -/
theorem length_take_flatten {lines : List SourceLine} {parts : List (List Byte)}
    (h : parts.map List.length = lines.map SourceLine.size) (k : Nat) :
    (parts.take k).flatten.length = ((lines.take k).map SourceLine.size).sum := by
  rw [List.length_flatten, List.map_take, List.map_take, h]

/-- A marked image that fits loads with its payload in memory from address 0 (R301). -/
theorem load_magic_append {payload : List Byte} (s : State)
    (h : (Config.magic ++ payload).length ≤ Config.imageMax) :
    s.load (Config.magic ++ payload) false = .next (s.withPayload payload) := by
  rw [State.load, if_neg (Nat.not_lt.mpr h), if_neg Bool.false_ne_true, List.take_left, if_pos rfl, List.drop_left]

/-- Settles O60, pass by pass. -/
theorem assembledImageLoads : Obligations.AssembledImageLoads := by
  unfold Obligations.AssembledImageLoads
  intro source image s h
  obtain ⟨lines, labels, bytes, hlines, hlabels, hbytes, rfl⟩ := assemble_ok h
  obtain ⟨parts, hencoded, rfl, hsizes⟩ := emitLines_ok hbytes
  obtain ⟨-, hbound, honce, honly⟩ := bindLabels_ok hlabels
  refine ⟨lines, labels, parts, parseLines_ok hlines, fun k name hk => ?_, honce, fun name hn => honly name hn rfl,
    hencoded, rfl, fun hfits => ⟨_, load_magic_append s hfits, rfl, fun a => Memory.read_ofBytes ..⟩⟩
  rw [length_take_flatten hsizes, (hbound k name hk).2, Nat.zero_add]

/-! ## The cycle of an illegal word -/

theorem classify_eq_error_of_decodeBytes {opcode param : Byte} {reason : DecodeError}
    (h : decodeBytes [opcode, param] = .error reason) : ∃ r, classify (wordOfBytes opcode param) = .error r := by
  cases hw : classify (wordOfBytes opcode param) with
  | error r => exact ⟨r, rfl⟩
  | ok i => simp [decodeBytes, hw] at h

theorem step_of_illegal {s : State} {reason : IllegalReason} (hs : s.canCycle)
    (h : classify s.fetchWord = .error reason) : step s = .next s.countTick.illegalWord := by
  rw [step_of_canCycle hs, fetchExecute, fetchWord_countTick, h]

/-- Settles O19: an illegal word is a fault taken right after the tick is counted. -/
theorem illegalWordRaisesSegmentationFault : Obligations.IllegalWordRaisesSegmentationFault := by
  unfold Obligations.IllegalWordRaisesSegmentationFault
  intro s reason hs h
  obtain ⟨r, hr⟩ := classify_eq_error_of_decodeBytes h
  exact ⟨_, step_of_illegal hs hr, rfl, rfl, State.countTick_toNat hs.2, fun _ => rfl, fun _ => rfl, rfl,
    ⟨rfl, rfl, rfl⟩, rfl, rfl, rfl, rfl⟩

end Sys2Proof.Machine
end

section
/-! PROOFS. The cycle (spec/40_cycle.md): a stopped core, the budget test, the decoded instruction, the tick, and what a
faulting cycle leaves. -/

namespace Sys2Proof.Machine

/-! ## A stopped core -/

theorem runSteps_of_not_running {s : State} (h : s.status ≠ .running) (n : Nat) : runSteps n s = .next s := by
  induction n with
  | zero => rfl
  | succ n ih => rw [runSteps_succ n (step_of_not_running h), ih]

theorem stepCommand_of_stopped {s : State} {o : RunOutcome} (h : s.status.outcome = some o) (c : StepCount) :
    s.stepCommand c = .next ⟨s, o, []⟩ := by
  simp only [State.stepCommand, h]

/-- Settles O16: no cycle starts, and a `step` command looks at the status before it counts. -/
theorem stoppedCoreExecutesNothing : Obligations.StoppedCoreExecutesNothing := by
  unfold Obligations.StoppedCoreExecutesNothing
  exact fun s c =>
    ⟨runSteps_of_not_running, fun h => stepCommand_of_stopped (by rw [h]; rfl) c,
      fun kind a h => stepCommand_of_stopped (by rw [h]; rfl) c⟩

/-! ## The budget, the decoded instruction and the tick -/

/-- Settles O17: the refused cycle writes the status alone. -/
theorem spentBudgetRefusesTheCycle : Obligations.SpentBudgetRefusesTheCycle := by
  unfold Obligations.SpentBudgetRefusesTheCycle
  exact fun s hr hb =>
    ⟨_, step_of_spent hr hb, rfl, rfl, ⟨fun _ _ => rfl, fun _ _ => rfl, ⟨rfl, rfl, rfl, rfl, rfl⟩⟩, rfl, ⟨rfl, rfl, rfl⟩⟩

theorem classify_eq_ok_of_decodeBytes {opcode param : Byte} {i : Instr} {rest : List Byte}
    (h : decodeBytes [opcode, param] = .ok (i, rest)) : classify (wordOfBytes opcode param) = .ok i := by
  cases hw : classify (wordOfBytes opcode param) with
  | error r => simp [decodeBytes, hw] at h
  | ok j =>
    simp only [decodeBytes, hw] at h
    cases h
    rfl

theorem step_of_legal {s : State} {i : Instr} (hs : s.canCycle) (h : classify s.fetchWord = .ok i) :
    step s = exec i s.countTick := by
  rw [step_of_canCycle hs, fetchExecute, fetchWord_countTick, h]

/-- Settles O15: the two bytes that decode are those of the fetched word. -/
theorem stepRunsTheDecodedInstruction : Obligations.StepRunsTheDecodedInstruction := by
  unfold Obligations.StepRunsTheDecodedInstruction
  exact fun s i rest hs h => step_of_legal hs (classify_eq_ok_of_decodeBytes h)

/-- The tick is counted in step 1, and neither an instruction nor an illegal word touches it afterwards. -/
theorem step_tick_of_canCycle {s t : State} (hs : s.canCycle) (h : step s = .next t) : t.tick = s.countTick.tick := by
  obtain ⟨hstop, -⟩ | ⟨-, hb, -⟩ | ⟨-, -, -, rfl⟩ | ⟨-, i, -, hi⟩ := step_cases h
  · exact absurd hs.1 hstop
  · exact absurd hs.2 (Nat.not_le_of_lt hb)
  · rfl
  · exact (effect_of_exec hi).sameHostState.1

/-- Settles O18, by the tick that step 1 counts. -/
theorem everyCycleCostsOneTick : Obligations.EveryCycleCostsOneTick := by
  unfold Obligations.EveryCycleCostsOneTick
  intro s t hs h
  rw [step_tick_of_canCycle hs h, State.countTick_toNat hs.2]

/-! ## What a faulting cycle leaves -/

/-- An instruction that ends in a fault has one of two effects: `pc` is left advanced, or it is RETUR on an empty stack
(R203, R274). -/
theorem Effect.faulted_cases {i : Instr} {s t : State} {kind : FaultKind} {a : Addr} (h : Effect i s t)
    (hs : s.status = .running) (ht : t.status = .faulted kind a) :
    (Faults i s kind ∧ t = s.faultHere kind) ∨
    (i = .retur ∧ s.callStack = [] ∧ kind = .segmentationFault ∧
      t = (s.setPc 0x000#12).raise .segmentationFault s.pc) := by
  cases h with
  | halts => cases ht
  | faults hf => cases ht; exact .inl ⟨hf, rfl⟩
  | returnFaults hstack => cases ht; exact .inr ⟨rfl, hstack, rfl, rfl⟩
  | _ => cases hs.symm.trans ht

/-- The three shapes of a faulting cycle: refused by the budget, faulting with `pc` advanced, or RETUR on an empty stack. -/
theorem step_faulted_cases {s t : State} {kind : FaultKind} {a : Addr} (hs : s.status = .running)
    (h : step s = .next t) (ht : t.status = .faulted kind a) :
    (s.tick.toNat + 1 > s.maxTicks.toNat ∧ kind = .resourcesExhausted s.maxTicks ∧ t = s.refuseCycle) ∨
    (s.canCycle ∧ t = s.countTick.faultHere kind) ∨
    (s.canCycle ∧ kind = .segmentationFault ∧ classify s.fetchWord = .ok .retur ∧
      t = (s.countTick.setPc 0x000#12).raise .segmentationFault s.pc) := by
  obtain ⟨hstop, -⟩ | ⟨-, hb, rfl⟩ | ⟨hc, -, -, rfl⟩ | ⟨hc, i, hw, hi⟩ := step_cases h
  · exact absurd hs hstop
  · cases ht; exact .inl ⟨hb, rfl, rfl⟩
  · cases ht; exact .inr (.inl ⟨hc, rfl⟩)
  · obtain ⟨-, rfl⟩ | ⟨rfl, -, rfl, rfl⟩ := (effect_of_exec hi).faulted_cases hs ht
    · exact .inr (.inl ⟨hc, rfl⟩)
    · exact .inr (.inr ⟨hc, rfl, hw, rfl⟩)

/-- A faulting cycle writes the tick, `pc` and the status, and nothing else. -/
theorem step_faulted_frame {s t : State} {kind : FaultKind} {a : Addr} (hs : s.status = .running)
    (h : step s = .next t) (ht : t.status = .faulted kind a) :
    ∃ tick pc, t = ({ s with tick := tick, pc := pc } : State).raise kind s.pc := by
  obtain ⟨-, rfl, rfl⟩ | ⟨-, rfl⟩ | ⟨-, rfl, -, rfl⟩ := step_faulted_cases hs h ht <;> exact ⟨_, _, rfl⟩

/-- What each of the three shapes leaves in the tick and `pc`. -/
theorem step_faulted_tick_pc {s t : State} {kind : FaultKind} {a : Addr} (hs : s.status = .running)
    (h : step s = .next t) (ht : t.status = .faulted kind a) :
    (kind = .resourcesExhausted s.maxTicks ∧ t.tick = s.tick ∧ t.pc = s.pc ∧ s.tick.toNat + 1 > s.maxTicks.toNat) ∨
    (t.tick.toNat = s.tick.toNat + 1 ∧ t.pc = s.pc + 2#12) ∨
    (t.tick.toNat = s.tick.toNat + 1 ∧ t.pc = 0#12 ∧ kind = .segmentationFault ∧
      classify s.fetchWord = .ok .retur) := by
  obtain ⟨hb, rfl, rfl⟩ | ⟨hc, rfl⟩ | ⟨hc, rfl, hw, rfl⟩ := step_faulted_cases hs h ht
  · exact .inl ⟨rfl, rfl, rfl, hb⟩
  · exact .inr (.inl ⟨State.countTick_toNat hc.2, rfl⟩)
  · exact .inr (.inr ⟨State.countTick_toNat hc.2, rfl, rfl, hw⟩)

/-- Settles O20: the frame of a faulting cycle, and its three outcomes of `tick` and `pc`. -/
theorem faultsArePrecise : Obligations.FaultsArePrecise := by
  unfold Obligations.FaultsArePrecise
  intro s t kind a hs h ht
  have houtcome := step_faulted_tick_pc hs h ht
  obtain ⟨tick, pc, rfl⟩ := step_faulted_frame hs h ht
  cases ht
  exact ⟨rfl, fun _ => rfl, fun _ => rfl, rfl, ⟨rfl, rfl, rfl⟩, rfl, rfl, rfl, rfl, houtcome⟩

end Sys2Proof.Machine
end

section
/-! PROOFS. STOPP and NOPE (spec/41_halt_nop.md): the words that select them, what they leave unchanged, and the outcome of
their cycles. -/

namespace Sys2Proof.Machine

/-! ## The words of STOPP and NOPE -/

/-- Class 0x0 has no other field (R81, R130). -/
theorem classify_of_class_zero {w : Word16} (h : w.toNat % 16 = 0) : classify w = .ok .stopp := by
  simp only [classify, operationClass_toNat, h]

/-- Class 0xC has no other field (R81, R131). -/
theorem classify_of_class_twelve {w : Word16} (h : w.toNat % 16 = 12) : classify w = .ok .nope := by
  simp only [classify, operationClass_toNat, h]

/-! ## What halting and the advance leave unchanged -/

theorem keepsBut_halt (s : State) : KeepsBut [] [] s s.halt :=
  ⟨fun r _ => State.halt_readReg s r, fun a _ => State.halt_readByte s a, rfl, rfl, rfl, rfl, rfl⟩

theorem keepsBut_advance (s : State) : KeepsBut [] [] s s.advance :=
  ⟨fun r _ => State.advance_readReg s r, fun a _ => State.advance_readByte s a, rfl, rfl, rfl, rfl, rfl⟩

/-! ## The outcome of a cycle -/

/-- A status that names an outcome takes precedence over the breakpoint test (R115; D12). -/
theorem cycleOutcome_of_outcome {t : State} {o : RunOutcome} (h : t.status.outcome = some o) : cycleOutcome t = o := by
  simp only [cycleOutcome, h]

/-- A cycle that leaves the core running ends with the breakpoint test (R115). -/
theorem cycleOutcome_of_running {t : State} (h : t.status = .running) :
    cycleOutcome t = if t.breakpointAt t.pc then .breakpointHit else .continuing := by
  simp only [cycleOutcome, h, Status.outcome]

/-! ## The two instructions -/

/-- Settles O26: the halted state differs in `status` alone, and that status ends the cycle and forbids the next. -/
theorem stoppHalts : Obligations.StoppHalts := by
  unfold Obligations.StoppHalts
  refine ⟨rfl, fun w => classify_of_class_zero, fun s => ?exec, fun s hs hw => ?cycle⟩
  case exec => exact ⟨s.halt, exec_stopp s, rfl, rfl, keepsBut_halt s, rfl, rfl, rfl, rfl⟩
  case cycle =>
    have hstep : step s = .next s.countTick.halt :=
      (step_of_legal hs (classify_of_class_zero hw)).trans (exec_stopp _)
    have hstopped : s.countTick.halt.status ≠ .running := nofun
    exact ⟨_, hstep, rfl, rfl, State.countTick_toNat hs.2, cycleOutcome_of_outcome rfl, step_of_not_running hstopped⟩

/-- Settles O27: after the advance the core still runs, so the cycle ends with the test at the new `pc`. -/
theorem nopeOnlyAdvances : Obligations.NopeOnlyAdvances := by
  unfold Obligations.NopeOnlyAdvances
  refine ⟨rfl, fun w => classify_of_class_twelve, fun s => ?exec, fun s hs hw => ?cycle⟩
  case exec =>
    exact ⟨s.advance, exec_nope s, advanced_advance s, keepsBut_advance s, rfl, ⟨rfl, rfl, rfl⟩, rfl⟩
  case cycle =>
    have hstep : step s = .next s.countTick.advance :=
      (step_of_legal hs (classify_of_class_twelve hw)).trans (exec_nope _)
    have hrunning : s.countTick.advance.status = .running := hs.1
    exact ⟨_, hstep, State.countTick_toNat hs.2, cycleOutcome_of_running hrunning⟩

end Sys2Proof.Machine
end

section
/-! PROOFS. SETT, both encodings (spec/42_set.md); and what the other instructions of its shapes share with it: the two bytes
of a word, the words whose top nibble is ignored, and the write of a destination register. -/

namespace Sys2Proof.Machine

/-! ## The two bytes of a word -/

/-- Bits side by side, as a sum. -/
theorem toNat_append_eq_add {k m : Nat} (x : BitVec k) (y : BitVec m) :
    (x ++ y).toNat = 2 ^ m * x.toNat + y.toNat := by
  rw [BitVec.toNat_append, ← Nat.shiftLeft_add_eq_or_of_lt y.isLt, Nat.shiftLeft_eq, Nat.mul_comm]

/-- A word made of two bytes is stored as these bytes, the low one first (R84). -/
theorem byteValues_of_encode_eq {i : Instr} {high low : Byte} (h : encode i = high ++ low) :
    byteValues i = [low.toNat, high.toNat] := by
  have hword : (encode i).toNat = 256 * high.toNat + low.toNat := by rw [h]; exact toNat_append_eq_add high low
  have hlow : (encode i).toNat % 256 = low.toNat := by omega
  have hhigh : (encode i).toNat / 256 = high.toNat := by omega
  rw [byteValues_eq, hlow, hhigh]

theorem byteValues_settImm (d : RegIdx) (imm : Byte) :
    byteValues (.settImm d imm) = [16 * d.toNat + 1, imm.toNat] := by
  have hword : encode (.settImm d imm) = imm ++ (d ++ 0x1#4) := BitVec.append_assoc
  rw [byteValues_of_encode_eq hword, toNat_append_eq_add]
  rfl

theorem byteValues_settReg (d r : RegIdx) :
    byteValues (.settReg d r) = [16 * d.toNat + 2, r.toNat] := by
  have hword : encode (.settReg d r) = (0#4 ++ r) ++ (d ++ 0x2#4) := BitVec.append_assoc
  rw [byteValues_of_encode_eq hword, toNat_append_eq_add, toNat_append_eq_add, BitVec.toNat_zero, Nat.mul_zero,
    Nat.zero_add]
  rfl

/-! ## Words whose bits 15:12 are ignored -/

/-- Masking off bits 15:12 leaves the low 12 bits. -/
theorem and_not_highNibble_eq {w v : Word16} (h : w.toNat % 4096 = v.toNat) : w &&& ~~~0xF000#16 = v :=
  BitVec.eq_of_toNat_eq <| by
    rw [← h, BitVec.toNat_and]
    exact Nat.and_two_pow_sub_one_eq_mod w.toNat 12

/-- In a row that ignores bits 15:12, a word with the low 12 bits of a canonical word is that word's instruction (D10). -/
theorem classify_of_low_bits {w : Word16} {i : Instr} {row : OpcodeRow} (hmem : row ∈ opcodeTable)
    (hdontCare : row.dontCare = 0xF000#16) (hselects : encode i &&& row.mask = row.selects)
    (h : w.toNat % 4096 = (encode i).toNat) : classify w = .ok i := by
  have hcanonical : w &&& ~~~row.dontCare = encode i := by rw [hdontCare, and_not_highNibble_eq h]
  have hw : w &&& row.mask = row.selects := by
    rw [← opcodeTable_mask_cared row hmem, ← BitVec.and_assoc, hcanonical, hselects]
  obtain ⟨j, hj, hrow⟩ := rowFor_of_selects hmem hw
  rw [hj, encode_injective (hrow.canonical.symm.trans hcanonical)]

theorem classify_of_low_bits_settReg {w : Word16} {d r : RegIdx}
    (h : w.toNat % 4096 = (encode (.settReg d r)).toNat) : classify w = .ok (.settReg d r) := by
  have hselects : encode (.settReg d r) &&& 0x000F#16 = encodeNone 0x2#4 := by
    rw [and_classMask, Laws.ClassOfEncoding.settReg d r]; rfl
  exact classify_of_low_bits (row := classRow .sett (encodeNone 0x2#4) 0xF000#16) (by decide) rfl hselects h

/-! ## The write of a destination register -/

/-- Every register but the destination is unchanged, and so is memory. -/
theorem keepsBut_finishWith (s : State) (d : RegIdx) (v : Byte) : KeepsBut [d] [] s (s.finishWith d v) := by
  refine ⟨fun r hr => ?_, fun _ _ => rfl, rfl, rfl, rfl, rfl, rfl⟩
  rw [State.readReg_finishWith, if_neg (List.ne_of_not_mem_cons hr)]

/-- An instruction that ends by writing its destination register does that and nothing else. -/
theorem writesRegister_of_exec {i : Instr} {d : RegIdx} {v : Byte} {s : State}
    (h : exec i s = .next (s.finishWith d v)) : WritesRegister i d v.toNat s := by
  have hread : (s.finishWith d v).readReg d = v := by rw [State.readReg_finishWith, if_pos rfl]
  exact ⟨_, h, congrArg BitVec.toNat hread, advanced_advance s, keepsBut_finishWith s d v, rfl, ⟨rfl, rfl, rfl⟩, rfl⟩

/-! ## The two instructions -/

/-- Settles O28: the operand of the write is the immediate of the word. -/
theorem settImmediateWritesItsRegister : Obligations.SettImmediateWritesItsRegister := by
  unfold Obligations.SettImmediateWritesItsRegister
  exact fun d imm s => ⟨byteValues_settImm d imm, writesRegister_of_exec (exec_settImm d imm s)⟩

/-- Settles O29: the operand of the write is rS as it was, rD = rS included. -/
theorem settRegisterCopies : Obligations.SettRegisterCopies := by
  unfold Obligations.SettRegisterCopies
  exact fun d r s =>
    ⟨byteValues_settReg d r, fun _ => classify_of_low_bits_settReg, writesRegister_of_exec (exec_settReg d r s)⟩

end Sys2Proof.Machine
end

section
/-! PROOFS. FINN, LAST and LAGR (spec/43_pointer_memory.md): the bytes of the formats with an address and with one
register, the halves of an address as numbers, and the store at the effective address. -/

namespace Sys2Proof.Machine

/-! ## The bytes of formats A and R -/

/-- Format A (R73): the low nibble of the address shares the first byte with the class. -/
theorem byteValues_of_encodeAddr {i : Instr} (c : Nibble) {a : Addr} (h : encode i = encodeAddr c a) :
    byteValues i = [16 * (a.toNat % 16) + c.toNat, a.toNat / 16] := by
  have hword : (encode i).toNat = 16 * a.toNat + c.toNat := by rw [h]; exact toNat_append_eq_add a c
  have hc : c.toNat < 16 := c.isLt
  have hlow : (encode i).toNat % 256 = 16 * (a.toNat % 16) + c.toNat := by omega
  have hhigh : (encode i).toNat / 256 = a.toNat / 16 := by omega
  rw [byteValues_eq, hlow, hhigh]

/-- Format R (R73): the sub-code over the class, then the register. -/
theorem byteValues_of_encodeOne {i : Instr} (c sub : Nibble) {r : RegIdx} (h : encode i = encodeOne c sub r) :
    byteValues i = [16 * sub.toNat + c.toNat, r.toNat] := by
  have hword : encode i = (0#4 ++ r) ++ (sub ++ c) := h.trans BitVec.append_assoc
  rw [byteValues_of_encode_eq hword, toNat_append_eq_add, toNat_append_eq_add, BitVec.toNat_zero, Nat.mul_zero,
    Nat.zero_add]
  rfl

/-- A word of format R is its instruction's whatever its bits 15:12 are (D10). -/
theorem classify_of_low_bits_encodeOne {w : Word16} {i : Instr} {c sub : Nibble} {r : RegIdx} (m : Mnemonic)
    (hi : encode i = encodeOne c sub r) (hrow : subRow m (0#8 ++ sub ++ c) 0xF000#16 ∈ opcodeTable)
    (h : w.toNat % 4096 = (encode i).toNat) : classify w = .ok i := by
  obtain ⟨hclass, hsub, -, -⟩ := fields_of_nibbles 0#4 r sub c
  have hselects : encode i &&& 0x00FF#16 = 0#8 ++ sub ++ c := by
    rw [hi, and_subMask, encodeOne, hclass, hsub]
  exact classify_of_low_bits hrow rfl hselects h

/-! ## The effective address -/

theorem addrHigh_toNat (a : Addr) : (addrHigh a).toNat = a.toNat / 256 := by
  have ha : a.toNat < 4096 := a.isLt
  rw [addrHigh, BitVec.toNat_setWidth, BitVec.extractLsb'_toNat, Nat.shiftRight_eq_div_pow]
  omega

theorem addrLow_toNat (a : Addr) : (addrLow a).toNat = a.toNat % 256 :=
  BitVec.extractLsb'_toNat 0 8 a

/-- A pointer pair that holds the halves of an address points at it. -/
theorem pointer_eq_of_halves {s : State} {a : Addr} (hhigh : s.readReg 1#4 = addrHigh a)
    (hlow : s.readReg 0#4 = addrLow a) : s.pointer = a := by
  have ha : a.toNat < 4096 := a.isLt
  apply BitVec.eq_of_toNat_eq
  rw [s.pointer_toNat, hhigh, hlow, addrHigh_toNat, addrLow_toNat]
  omega

/-- The effective address by the formula of R151: the mask cuts the high nibble of `r1` off. -/
theorem pointer_toNat_eq_and (s : State) :
    s.pointer.toNat = (((s.readReg 1#4).toNat <<< 8) ||| (s.readReg 0#4).toNat) &&& 0xFFF := by
  have hlow : (s.readReg 0#4).toNat < 2 ^ 8 := BitVec.isLt _
  have hmask := Nat.and_two_pow_sub_one_eq_mod (((s.readReg 1#4).toNat <<< 8) ||| (s.readReg 0#4).toNat) 12
  rw [s.pointer_toNat, hmask, ← Nat.shiftLeft_add_eq_or_of_lt hlow, Nat.shiftLeft_eq]
  omega

/-! ## What the writes of FINN and LAGR leave unchanged -/

/-- A second register write after that of a destination changes these two registers only. -/
theorem keepsBut_writeReg_finishWith (s : State) (d r : RegIdx) (u v : Byte) :
    KeepsBut [r, d] [] s ((s.finishWith d u).writeReg r v) := by
  refine ⟨fun x hx => ?_, fun _ _ => rfl, rfl, rfl, rfl, rfl, rfl⟩
  obtain ⟨hr, hd⟩ : x ≠ r ∧ x ≠ d := by simpa using hx
  rw [State.readReg_writeReg_of_ne _ hr, State.readReg_finishWith, if_neg hd]

theorem keepsBut_writeByte_advance (s : State) (a : Addr) (v : Byte) :
    KeepsBut [] [a] s (s.advance.writeByte a v) :=
  ⟨fun _ _ => rfl, sameMemoryBut_writeByte s.advance a v, rfl, rfl, rfl, rfl, rfl⟩

/-! ## The three instructions -/

/-- Settles O30: the two registers read back as the halves of the address, and so point at it. -/
theorem finnLoadsThePointerPair : Obligations.FinnLoadsThePointerPair := by
  unfold Obligations.FinnLoadsThePointerPair
  intro a s
  have hhigh : ((s.finishWith 1#4 (addrHigh a)).writeReg 0#4 (addrLow a)).readReg 1#4 = addrHigh a := by
    rw [State.readReg_writeReg_of_ne _ (by decide), State.readReg_finishWith, if_pos rfl]
  have hlow := (s.finishWith 1#4 (addrHigh a)).readReg_writeReg_same 0#4 (addrLow a)
  refine ⟨byteValues_of_encodeAddr 0x3#4 rfl, _, exec_finn a s, ?high, ?low, pointer_eq_of_halves hhigh hlow,
    advanced_advance s, keepsBut_writeReg_finishWith .., rfl, ⟨rfl, rfl, rfl⟩, rfl⟩
  case high => rw [hhigh, addrHigh_toNat]
  case low => rw [hlow, addrLow_toNat]

/-- Settles O31: the operand of the write is the byte that the old pointer pair points at. -/
theorem lastLoadsThroughThePointer : Obligations.LastLoadsThroughThePointer := by
  unfold Obligations.LastLoadsThroughThePointer
  intro d s
  exact ⟨byteValues_of_encodeOne 0x4#4 0#4 rfl, fun _ => classify_of_low_bits_encodeOne .last rfl (by decide),
    pointer_toNat_eq_and s, writesRegister_of_exec (exec_last d s)⟩

/-- Settles O32: the store reads back at the effective address and reaches nothing else. -/
theorem lagrStoresThroughThePointer : Obligations.LagrStoresThroughThePointer := by
  unfold Obligations.LagrStoresThroughThePointer
  intro r s
  exact ⟨byteValues_of_encodeOne 0x4#4 1#4 rfl, fun _ => classify_of_low_bits_encodeOne .lagr rfl (by decide), _,
    exec_lagr r s, State.readByte_writeByte_same .., advanced_advance s, keepsBut_writeByte_advance .., rfl,
    ⟨rfl, rfl, rfl⟩, rfl⟩

end Sys2Proof.Machine
end

section
/-! PROOFS. The seven ALU instructions (spec/44_alu.md): the bytes of format RR, the shifts and the subtraction as
numbers, and the result that each instruction writes to its destination. -/

namespace Sys2Proof.Machine

/-! ## The bytes of format RR -/

/-- Format RR (R73): the sub-code over the class, then the second register over the first. -/
theorem byteValues_of_encodeTwo {i : Instr} (c sub : Nibble) {d r : RegIdx} (h : encode i = encodeTwo c sub d r) :
    byteValues i = [16 * sub.toNat + c.toNat, 16 * r.toNat + d.toNat] := by
  have hword : encode i = (r ++ d) ++ (sub ++ c) := h.trans BitVec.append_assoc
  rw [byteValues_of_encode_eq hword, toNat_append_eq_add, toNat_append_eq_add]
  rfl

/-! ## The shifts -/

/-- The whole register is the count (D5). -/
theorem shiftCount_eq_toNat (n : Byte) : shiftCount n = n.toNat := rfl

theorem shiftLeft_toNat (a n : Byte) : (shiftLeft a n).toNat = a.toNat * 2 ^ n.toNat % 256 := by
  rw [shiftLeft, shiftCount_eq_toNat, BitVec.toNat_shiftLeft, Nat.shiftLeft_eq]

/-- The right shift is logical (D6). -/
theorem shiftRight_toNat (a n : Byte) : (shiftRight a n).toNat = a.toNat / 2 ^ n.toNat := by
  rw [shiftRight, shiftCount_eq_toNat, BitVec.toNat_ushiftRight, Nat.shiftRight_eq_div_pow]

/-- A count of 8 or more shifts every bit out at the top (D5). -/
theorem shiftLeft_eq_zero (a : Byte) {n : Byte} (h : 8 ≤ n.toNat) : shiftLeft a n = 0#8 :=
  BitVec.shiftLeft_eq_zero h

/-- A count of 8 or more shifts every bit out at the bottom (D5, D6). -/
theorem shiftRight_eq_zero (a : Byte) {n : Byte} (h : 8 ≤ n.toNat) : shiftRight a n = 0#8 :=
  BitVec.ushiftRight_eq_zero h

/-! ## The results -/

/-- The byte that an instruction writes to its destination may be stated as any number it is equal to. -/
theorem writesRegister_of_exec_of_toNat {i : Instr} {d : RegIdx} {v : Byte} {n : Nat} {s : State}
    (h : exec i s = .next (s.finishWith d v)) (hv : v.toNat = n) : WritesRegister i d n s :=
  hv ▸ writesRegister_of_exec h

/-- MINUS borrows from 256 (R167). -/
theorem byte_sub_toNat (a b : Byte) : (a - b).toNat = (a.toNat + 256 - b.toNat) % 256 := by
  rw [BitVec.toNat_sub]
  omega

/-! ## The seven instructions -/

/-- Settles O35: both shifts as numbers, and apart from them the counts that shift every bit out. -/
theorem shiftsByARegisterCount : Obligations.ShiftsByARegisterCount := by
  unfold Obligations.ShiftsByARegisterCount
  intro d r s
  have hleft := exec_vskift d r s
  have hright := exec_hskift d r s
  refine ⟨byteValues_of_encodeTwo 0x5#4 3#4 rfl, byteValues_of_encodeTwo 0x5#4 4#4 rfl,
    writesRegister_of_exec_of_toNat hleft (shiftLeft_toNat ..),
    writesRegister_of_exec_of_toNat hright (shiftRight_toNat ..), fun hcount => ⟨?left, ?right⟩⟩
  case left => exact writesRegister_of_exec_of_toNat hleft (congrArg BitVec.toNat (shiftLeft_eq_zero _ hcount))
  case right => exact writesRegister_of_exec_of_toNat hright (congrArg BitVec.toNat (shiftRight_eq_zero _ hcount))

/-- Settles O33: the bit operations of bytes are those of their numbers; for one register they are idempotent, and the
exclusive or cancels. -/
theorem bitwiseOperations : Obligations.BitwiseOperations := by
  unfold Obligations.BitwiseOperations
  intro d r s
  exact ⟨byteValues_of_encodeTwo 0x5#4 0#4 rfl, byteValues_of_encodeTwo 0x5#4 1#4 rfl,
    byteValues_of_encodeTwo 0x5#4 2#4 rfl,
    writesRegister_of_exec_of_toNat (exec_og d r s) (BitVec.toNat_and ..),
    writesRegister_of_exec_of_toNat (exec_eller d r s) (BitVec.toNat_or ..),
    writesRegister_of_exec_of_toNat (exec_xeller d r s) (BitVec.toNat_xor ..),
    writesRegister_of_exec_of_toNat (exec_og d d s) (congrArg BitVec.toNat BitVec.and_self),
    writesRegister_of_exec_of_toNat (exec_eller d d s) (congrArg BitVec.toNat BitVec.or_self),
    writesRegister_of_exec_of_toNat (exec_xeller d d s) (congrArg BitVec.toNat BitVec.xor_self)⟩

/-- Settles O34: addition and subtraction of bytes are modulo 256. -/
theorem plussAndMinusWrapModulo256 : Obligations.PlussAndMinusWrapModulo256 := by
  unfold Obligations.PlussAndMinusWrapModulo256
  intro d r s
  exact ⟨byteValues_of_encodeTwo 0x5#4 5#4 rfl, byteValues_of_encodeTwo 0x5#4 6#4 rfl,
    writesRegister_of_exec_of_toNat (exec_pluss d r s) (BitVec.toNat_add ..),
    writesRegister_of_exec_of_toNat (exec_minus d r s) (byte_sub_toNat ..)⟩

end Sys2Proof.Machine
end

section
/-! PROOFS. LES and SKRIV (spec/45_io.md): each of their two cases, and what a fault raised by an instruction leaves
unchanged. -/

namespace Sys2Proof.Machine

/-! ## A fault with `pc` advanced -/

theorem keepsBut_faultHere (s : State) (kind : FaultKind) : KeepsBut [] [] s (s.faultHere kind) :=
  ⟨fun r _ => State.faultHere_readReg s kind r, fun a _ => State.faultHere_readByte s kind a, rfl, rfl, rfl, rfl, rfl⟩

/-- An instruction that ends in a fault with `pc` advanced writes `pc` and the status, and nothing else (R274; D2, D3). -/
theorem frame_of_exec_faultHere {i : Instr} {s : State} {kind : FaultKind}
    (h : exec i s = .next (s.faultHere kind)) :
    ∃ t, exec i s = .next t ∧ t.status = .faulted kind s.pc ∧ t.pc = s.pc + 2#12 ∧
      KeepsBut [] [] s t ∧ t.flag = s.flag ∧ SameStores s t :=
  ⟨_, h, rfl, rfl, keepsBut_faultHere s kind, rfl, rfl, rfl, rfl⟩

/-! ## The two cases of each instruction -/

theorem exec_les_of_some (d : RegIdx) {s : State} {b : Byte} (h : s.stdin[s.inputPtr]? = some b) :
    exec (.les d) s = .next (({ s with inputPtr := s.inputPtr + 1 } : State).finishWith d b) := by
  rw [exec_les, h]

theorem exec_les_of_length_le (d : RegIdx) {s : State} (h : s.stdin.length ≤ s.inputPtr) :
    exec (.les d) s = .next (s.faultHere .readAfterEndOfInput) := by
  rw [exec_les, List.getElem?_eq_none h]

theorem exec_skriv_of_lt (r : RegIdx) {s : State} (h : s.outputStream.length < Config.outMax) :
    exec (.skriv r) s = .next ({ s with outputStream := s.outputStream ++ [s.readReg r] } : State).advance := by
  rw [exec_skriv, if_pos h]

theorem exec_skriv_of_le (r : RegIdx) {s : State} (h : Config.outMax ≤ s.outputStream.length) :
    exec (.skriv r) s = .next (s.faultHere .segmentationFault) := by
  rw [exec_skriv, if_neg h.not_gt]

/-! ## The two instructions -/

/-- Settles O38: with a byte at the cursor LES is a write of its destination that moves the cursor too; at the end of the
input it is a fault, which moves nothing (D19). -/
theorem lesReadsTheNextInputByte : Obligations.LesReadsTheNextInputByte := by
  unfold Obligations.LesReadsTheNextInputByte
  intro d s
  refine ⟨fun b hb => ⟨_, exec_les_of_some d hb, ?dest, rfl, advanced_advance s, ?frame, rfl, rfl, rfl, rfl⟩,
    fun hend => frame_of_exec_faultHere (exec_les_of_length_le d hend)⟩
  case dest => rw [State.readReg_finishWith, if_pos rfl]
  case frame => exact keepsBut_finishWith { s with inputPtr := s.inputPtr + 1 } d b

/-- Settles O39: with room in the output SKRIV is an advance that appends too; with 1000 bytes written it is a fault,
which appends nothing (D20). -/
theorem skrivAppendsToTheOutput : Obligations.SkrivAppendsToTheOutput := by
  unfold Obligations.SkrivAppendsToTheOutput
  exact fun r s =>
    ⟨fun hroom => ⟨_, exec_skriv_of_lt r hroom, rfl, advanced_advance s, keepsBut_advance s, rfl, rfl, rfl, rfl⟩,
      fun hfull => frame_of_exec_faultHere (exec_skriv_of_le r hfull)⟩

end Sys2Proof.Machine
end

section
/-! PROOFS. The six compares (spec/46_compare.md): each relation on bytes as a relation of their numbers, and what a compare
leaves unchanged. -/

namespace Sys2Proof.Machine

/-! ## The relations -/

theorem relEq_iff (a b : Byte) : relEq a b = true ↔ a.toNat = b.toNat :=
  beq_iff_eq.trans BitVec.toNat_inj.symm

theorem relNe_iff (a b : Byte) : relNe a b = true ↔ a.toNat ≠ b.toNat :=
  bne_iff_ne.trans BitVec.toNat_inj.symm.not

theorem relLt_iff (a b : Byte) : relLt a b = true ↔ a.toNat < b.toNat := decide_eq_true_iff

theorem relLe_iff (a b : Byte) : relLe a b = true ↔ a.toNat ≤ b.toNat := decide_eq_true_iff

/-- The left operand is the greater one (R194; D9). -/
theorem relGt_iff (a b : Byte) : relGt a b = true ↔ b.toNat < a.toNat := decide_eq_true_iff

/-- The left operand is the one not below (R195; D9). -/
theorem relGe_iff (a b : Byte) : relGe a b = true ↔ b.toNat ≤ a.toNat := decide_eq_true_iff

/-! ## The write of the flag -/

theorem keepsBut_setFlag_advance (s : State) (b : Bool) : KeepsBut [] [] s (s.advance.setFlag b) :=
  keepsBut_advance s

/-- An instruction that ends by advancing and writing the flag does that and nothing else (R196). -/
theorem writesFlag_of_exec {i : Instr} {b : Bool} {p : Prop} {s : State}
    (h : exec i s = .next (s.advance.setFlag b)) (hb : b = true ↔ p) : WritesFlag i p s :=
  ⟨_, h, hb, advanced_advance s, keepsBut_setFlag_advance s b, ⟨rfl, rfl, rfl⟩, rfl⟩

/-! ## The six instructions -/

/-- Settles O36: bytes are equal when their numbers are. -/
theorem likAndUlikTestEquality : Obligations.LikAndUlikTestEquality := by
  unfold Obligations.LikAndUlikTestEquality
  intro x y s
  exact ⟨byteValues_of_encodeTwo 0x7#4 0#4 rfl, byteValues_of_encodeTwo 0x7#4 1#4 rfl,
    writesFlag_of_exec (exec_lik x y s) (relEq_iff ..), writesFlag_of_exec (exec_ulik x y s) (relNe_iff ..)⟩

/-- Settles O37: the ordered relations are those of the unsigned numbers (D7), the first register on the left (D9). -/
theorem orderedComparesAreUnsigned : Obligations.OrderedComparesAreUnsigned := by
  unfold Obligations.OrderedComparesAreUnsigned
  intro x y s
  exact ⟨byteValues_of_encodeTwo 0x7#4 2#4 rfl, byteValues_of_encodeTwo 0x7#4 3#4 rfl,
    byteValues_of_encodeTwo 0x7#4 4#4 rfl, byteValues_of_encodeTwo 0x7#4 5#4 rfl,
    writesFlag_of_exec (exec_me x y s) (relLt_iff ..), writesFlag_of_exec (exec_mel x y s) (relLe_iff ..),
    writesFlag_of_exec (exec_se x y s) (relGt_iff ..), writesFlag_of_exec (exec_sel x y s) (relGe_iff ..)⟩

end Sys2Proof.Machine
end

section
/-! PROOFS. HOPP, BHOPP, TUR and RETUR (spec/47_control.md): each of their cases, what a jump leaves unchanged, the breakpoint
test at its target, and the loop that only the budget ends. -/

namespace Sys2Proof.Machine

/-! ## The cases of each instruction -/

/-- Class 0xB has no other field (R81, R203; D10). -/
theorem classify_of_class_eleven {w : Word16} (h : w.toNat % 16 = 11) : classify w = .ok .retur := by
  simp only [classify, operationClass_toNat, h]

theorem exec_bhopp_of_flag (a : Addr) {s : State} (h : s.flag = true) :
    exec (.bhopp a) s = .next (s.advance.setPc a) := by
  rw [exec_bhopp, if_pos h]

theorem exec_bhopp_of_not_flag (a : Addr) {s : State} (h : s.flag = false) :
    exec (.bhopp a) s = .next s.advance := by
  rw [exec_bhopp, if_neg (Bool.eq_false_iff.mp h)]

theorem exec_tur_of_lt (a : Addr) {s : State} (h : s.depth < Config.callDepth) :
    exec (.tur a) s = .next (({ s with callStack := s.callStack ++ [s.nextPc] } : State).setPc a) := by
  rw [exec_tur, if_pos h]

theorem exec_tur_of_le (a : Addr) {s : State} (h : Config.callDepth ≤ s.depth) :
    exec (.tur a) s = .next (s.faultHere .recursionLimitExceeded) := by
  rw [exec_tur, if_neg h.not_gt]

theorem exec_retur_of_append {s : State} {below : List Addr} {ra : Addr} (h : s.callStack = below ++ [ra]) :
    exec .retur s = .next (({ s with callStack := below } : State).setPc ra) := by
  rw [exec_retur, h, List.getLast?_concat, List.dropLast_concat]

theorem exec_retur_of_nil {s : State} (h : s.callStack = []) :
    exec .retur s = .next ((s.setPc 0x000#12).raise .segmentationFault s.pc) := by
  rw [exec_retur, h, List.getLast?_nil]

/-! ## What a jump leaves unchanged, and the test at its target -/

theorem keepsBut_setPc (s : State) (a : Addr) : KeepsBut [] [] s (s.setPc a) :=
  ⟨fun r _ => State.setPc_readReg s a r, fun x _ => State.setPc_readByte s a x, rfl, rfl, rfl, rfl, rfl⟩

/-- An instruction that ends by putting `pc` somewhere over the advance does that and nothing else (R200, R201). -/
theorem jumpsTo_of_exec {i : Instr} {a : Addr} {s : State} (h : exec i s = .next (s.advance.setPc a)) :
    JumpsTo i a s :=
  ⟨_, h, rfl, keepsBut_setPc s a, rfl, ⟨rfl, rfl, rfl⟩, rfl⟩

/-- The cycle of an instruction that goes to `target` and leaves the core running ends with the breakpoint test there (R115):
no instruction touches the breakpoints (R283). -/
theorem cycleOutcome_at_target {i : Instr} {s t : State} {target : Addr} (hs : s.canCycle)
    (hw : classify s.fetchWord = .ok i) (h : exec i s.countTick = .next t) (hpc : t.pc = target)
    (hstatus : t.status = s.status) :
    ∃ u, step s = .next u ∧ u.pc = target ∧
      cycleOutcome u = if s.breakpointAt target then .breakpointHit else .continuing := by
  obtain ⟨-, -, -, hbp, -⟩ := (effect_of_exec h).sameHostState
  have htest : t.breakpointAt target = s.breakpointAt target := congrArg (BitVec.getLsbD · target.toNat) hbp
  refine ⟨t, (step_of_legal hs hw).trans h, hpc, ?_⟩
  rw [cycleOutcome_of_running (hstatus.trans hs.1), hpc, htest]

/-! ## A HOPP to itself -/

/-- The state with `k` more ticks counted. -/
def State.addTicks (s : State) (k : Nat) : State := { s with tick := s.tick + BitVec.ofNat 32 k }

theorem State.addTicks_zero (s : State) : s.addTicks 0 = s := by
  rw [State.addTicks, BitVec.add_zero]

theorem State.addTicks_countTick (s : State) (k : Nat) : s.countTick.addTicks k = s.addTicks (k + 1) := by
  simp only [State.addTicks, State.countTick, BitVec.add_assoc, BitVec.ofNat_add, BitVec.add_comm 1#32]

/-- Ticks within the budget do not overflow (R28). -/
theorem State.addTicks_toNat {s : State} {k : Nat} (h : s.tick.toNat + k ≤ s.maxTicks.toNat) :
    (s.addTicks k).tick.toNat = s.tick.toNat + k := by
  have hmax : s.maxTicks.toNat < 2 ^ 32 := s.maxTicks.isLt
  rw [State.addTicks, BitVec.toNat_add, BitVec.toNat_ofNat, Nat.add_mod_mod, Nat.mod_eq_of_lt (by omega)]

/-- One cycle of a HOPP to itself counts a tick and does nothing else. -/
theorem step_of_hopp_self {s : State} (hs : s.canCycle) (hw : classify s.fetchWord = .ok (.hopp s.pc)) :
    step s = .next s.countTick :=
  (step_of_legal hs hw).trans (exec_hopp s.pc s.countTick)

/-- As long as the budget lasts, the cycles of a HOPP to itself count their ticks and do nothing else, so a run goes on from
there. -/
theorem runSteps_of_hopp_self {s : State} {k : Nat} (hr : s.status = .running)
    (hw : classify s.fetchWord = .ok (.hopp s.pc)) (hk : s.tick.toNat + k ≤ s.maxTicks.toNat) (n : Nat) :
    runSteps (k + n) s = runSteps n (s.addTicks k) := by
  induction k generalizing s with
  | zero => rw [Nat.zero_add, State.addTicks_zero]
  | succ k ih =>
    have hs : s.canCycle := ⟨hr, by omega⟩
    have hbudget : s.countTick.tick.toNat + k ≤ s.maxTicks.toNat := by rw [State.countTick_toNat hs.2]; omega
    calc runSteps (k + 1 + n) s
        = runSteps (k + n + 1) s := by rw [Nat.add_right_comm]
      _ = runSteps (k + n) s.countTick := runSteps_succ _ (step_of_hopp_self hs hw)
      _ = runSteps n (s.countTick.addTicks k) := ih hr hw hbudget
      _ = runSteps n (s.addTicks (k + 1)) := by rw [State.addTicks_countTick]

/-- Settles O41: within the budget the loop only counts ticks; with the last one counted the next cycle is refused, which
writes the status alone (D1). -/
theorem tightLoopEndsWhenTheBudgetIsSpent : Obligations.TightLoopEndsWhenTheBudgetIsSpent := by
  unfold Obligations.TightLoopEndsWhenTheBudgetIsSpent
  intro s left hr hw hleft
  refine ⟨fun k hk => ?runs, ?ends⟩
  case runs =>
    have hbudget : s.tick.toNat + k ≤ s.maxTicks.toNat := by omega
    exact ⟨_, runSteps_of_hopp_self hr hw hbudget 0, hr, rfl, State.addTicks_toNat hbudget⟩
  case ends =>
    have htick : (s.addTicks left).tick.toNat = s.maxTicks.toNat := (State.addTicks_toNat hleft.le).trans hleft
    have hrefused : step (s.addTicks left) = .next (s.addTicks left).refuseCycle :=
      step_of_spent hr (htick ▸ Nat.lt_succ_self _)
    have hrun := (runSteps_of_hopp_self hr hw hleft.le 1).trans (runSteps_succ 0 hrefused)
    exact ⟨_, hrun, rfl, rfl, BitVec.eq_of_toNat_eq htick⟩

/-! ## The four instructions -/

/-- Settles O43: with an entry on the stack RETUR is a jump to it that drops it; on an empty stack it writes `pc` and the
status alone. -/
theorem returReturnsOrFaultsAtZero : Obligations.ReturReturnsOrFaultsAtZero := by
  unfold Obligations.ReturReturnsOrFaultsAtZero
  refine ⟨rfl, fun w => classify_of_class_eleven, fun s below ra hstack => ?returns,
    fun s below ra hs hw hstack => ?cycle, fun s hempty => ?faults⟩
  case returns =>
    exact ⟨_, exec_retur_of_append hstack, rfl, rfl, keepsBut_setPc { s with callStack := below } ra, rfl, rfl, rfl, rfl⟩
  case cycle =>
    have hexec := exec_retur_of_append (s := s.countTick) hstack
    exact cycleOutcome_at_target hs (classify_of_class_eleven hw) hexec rfl rfl
  case faults =>
    exact ⟨_, exec_retur_of_nil hempty, rfl, rfl, keepsBut_setPc s 0#12, rfl, rfl, rfl, rfl⟩

/-- Settles O40: HOPP and the taken BHOPP jump to their address, the untaken BHOPP to the address after it. -/
theorem hoppAndBhoppJump : Obligations.HoppAndBhoppJump := by
  unfold Obligations.HoppAndBhoppJump
  intro a s
  refine ⟨byteValues_of_encodeAddr 0x8#4 rfl, jumpsTo_of_exec (exec_hopp a s), byteValues_of_encodeAddr 0x9#4 rfl,
    fun hf => jumpsTo_of_exec (exec_bhopp_of_flag a hf), fun hf => ?untaken, fun hs hw => ?cycle⟩
  case untaken =>
    have hexec := exec_bhopp_of_not_flag a hf
    exact ⟨s.advance, hexec, advanced_advance s, jumpsTo_of_exec hexec⟩
  case cycle =>
    obtain hw | ⟨hw, hf⟩ := hw
    · exact cycleOutcome_at_target hs hw (exec_hopp a s.countTick) rfl rfl
    · exact cycleOutcome_at_target hs hw (exec_bhopp_of_flag (s := s.countTick) a hf) rfl rfl

/-- Settles O42: below the limit TUR is a jump that pushes too; at the limit it is a fault, which pushes nothing. -/
theorem turCallsUpToTheLimit : Obligations.TurCallsUpToTheLimit := by
  unfold Obligations.TurCallsUpToTheLimit
  intro a s
  refine ⟨fun hroom => ⟨_, exec_tur_of_lt a hroom, rfl, rfl, ?frame, rfl, rfl, rfl, rfl⟩,
    fun hfull => frame_of_exec_faultHere (exec_tur_of_le a hfull.ge)⟩
  case frame => exact keepsBut_setPc { s with callStack := s.callStack ++ [s.nextPc] } a

/-- Settles O44: the entry that RETUR drops is the one that TUR pushed. -/
theorem returComesBackAfterTheCall : Obligations.ReturComesBackAfterTheCall := by
  unfold Obligations.ReturComesBackAfterTheCall
  intro a s t u v hroom hcall hkept hreturn
  rw [exec_tur_of_lt a hroom] at hcall
  cases hcall
  rw [exec_retur_of_append hkept] at hreturn
  cases hreturn
  exact ⟨rfl, rfl, rfl⟩

end Sys2Proof.Machine
end

section
/-! PROOFS. The faults an instruction can raise (spec/60_exceptions.md), what no number of cycles changes, and the end of
every run (spec/70_reset_and_hazards.md R308). -/

namespace Sys2Proof.Machine

/-! ## The faults of instructions -/

/-- Settles O21: an instruction faults with `pc` advanced, as its own rule lists it, or it is RETUR on an empty stack. -/
theorem instructionsFaultOnlyAsListed : Obligations.InstructionsFaultOnlyAsListed := by
  unfold Obligations.InstructionsFaultOnlyAsListed
  intro i s t kind a hs h ht
  obtain ⟨hles | hskriv | htur, -⟩ | ⟨hretur, hempty, hkind, -⟩ := (effect_of_exec h).faulted_cases hs ht
  · exact .inl hles
  · exact .inr (.inl hskriv)
  · exact .inr (.inr (.inl htur))
  · exact .inr (.inr (.inr ⟨hretur, hkind, List.length_eq_zero_iff.mpr hempty⟩))

/-- A cycle that starts within the budget never ends in the budget's fault (R111). -/
theorem step_status_ne_exhausted {s t : State} {budget : Tick} {a : Addr} (hs : s.canCycle) (h : step s = .next t) :
    t.status ≠ .faulted (.resourcesExhausted budget) a := by
  intro ht
  obtain ⟨hstop, -⟩ | ⟨-, hb, -⟩ | ⟨-, -, -, rfl⟩ | ⟨-, i, -, hi⟩ := step_cases h
  · exact hstop hs.1
  · exact absurd hs.2 (Nat.not_le_of_lt hb)
  · cases ht
  · obtain ⟨⟨-, hkind, -⟩ | ⟨-, hkind, -⟩ | ⟨-, hkind, -⟩, -⟩ | ⟨-, -, hkind, -⟩ :=
      (effect_of_exec hi).faulted_cases hs.1 ht <;> cases hkind

/-! ## The host's state -/

/-- `t` has the host's fields of `s` and a tick that is not below (R28, R33, R283). -/
def KeepsHostState (s t : State) : Prop :=
  t.maxTicks = s.maxTicks ∧ t.breakpoints = s.breakpoints ∧ t.stdin = s.stdin ∧ t.memoryUsed = s.memoryUsed ∧
    s.tick.toNat ≤ t.tick.toNat

theorem KeepsHostState.trans {s t u : State} (hst : KeepsHostState s t) (htu : KeepsHostState t u) :
    KeepsHostState s u := by
  obtain ⟨hmax, hbp, hin, hused, htick⟩ := hst
  obtain ⟨hmax', hbp', hin', hused', htick'⟩ := htu
  exact ⟨hmax'.trans hmax, hbp'.trans hbp, hin'.trans hin, hused'.trans hused, htick.trans htick'⟩

theorem step_keepsHostState {s t : State} (h : step s = .next t) : KeepsHostState s t := by
  obtain ⟨-, rfl⟩ | ⟨-, -, rfl⟩ | ⟨hc, -, -, rfl⟩ | ⟨hc, i, -, hi⟩ := step_cases h
  · exact ⟨rfl, rfl, rfl, rfl, le_rfl⟩
  · exact ⟨rfl, rfl, rfl, rfl, le_rfl⟩
  · exact ⟨rfl, rfl, rfl, rfl, (State.countTick_toNat hc.2).symm ▸ Nat.le_succ _⟩
  · obtain ⟨htick, hmax, hin, hbp, hused⟩ := (effect_of_exec hi).sameHostState
    exact ⟨hmax, hbp, hin, hused, by rw [htick, State.countTick_toNat hc.2]; exact Nat.le_succ _⟩

/-- Settles O48, by what one cycle keeps. -/
theorem programsCannotTouchHostState : Obligations.ProgramsCannotTouchHostState := by
  unfold Obligations.ProgramsCannotTouchHostState
  intro n s t h
  exact runSteps_induction (P := KeepsHostState s) (fun _ _ hs hstep => hs.trans (step_keepsHostState hstep))
    ⟨rfl, rfl, rfl, rfl, le_rfl⟩ h

/-! ## The end of a run -/

/-- Each cycle that the budget admits uses up one of those left (R308). -/
theorem cyclesLeft_of_step {s t : State} (hs : s.canCycle) (h : step s = .next t) :
    s.cyclesLeft = t.cyclesLeft + 1 := by
  have htick : t.tick.toNat = s.tick.toNat + 1 := by rw [step_tick_of_canCycle hs h, State.countTick_toNat hs.2]
  obtain ⟨hmax, -⟩ := step_keepsHostState h
  have hbudget := hs.2
  rw [State.cyclesLeft, State.cyclesLeft, hmax, htick]
  omega

/-- A running core can cycle, or its budget is spent and the next cycle is refused (R111). -/
theorem canCycle_or_spent {s : State} (hs : s.status = .running) :
    s.canCycle ∨ s.tick.toNat + 1 > s.maxTicks.toNat :=
  (Nat.lt_or_ge s.maxTicks.toNat (s.tick.toNat + 1)).symm.imp_left fun hb => ⟨hs, hb⟩

/-- A core stops within the cycles that its budget leaves it. -/
theorem exists_runSteps_stopped {left : Nat} {s : State} (hleft : s.cyclesLeft = left) :
    ∃ n t, n ≤ left ∧ runSteps n s = .next t ∧ t.status ≠ .running := by
  induction left generalizing s with
  | zero => cases hleft
  | succ left ih =>
    by_cases hs : s.status = .running
    · obtain hc | hb := canCycle_or_spent hs
      · obtain ⟨t, ht⟩ := step_answers s
        obtain ⟨n, u, hn, hrun, hu⟩ := ih (s := t) (by have := cyclesLeft_of_step hc ht; omega)
        exact ⟨n + 1, u, Nat.succ_le_succ hn, (runSteps_succ n ht).trans hrun, hu⟩
      · exact ⟨1, _, Nat.le_add_left .., runSteps_succ 0 (step_of_spent hs hb), nofun⟩
    · exact ⟨0, s, Nat.zero_le _, rfl, hs⟩

/-- Settles O22, by induction on the cycles left. -/
theorem everyRunEnds : Obligations.EveryRunEnds := by
  unfold Obligations.EveryRunEnds
  exact fun s => exists_runSteps_stopped rfl

end Sys2Proof.Machine
end

section
/-! PROOFS. Power-on, `load` and `resetRegisters` (spec/70_reset_and_hazards.md). -/

namespace Sys2Proof.Machine

/-- No breakpoint is armed where all 4096 bits are 0. -/
theorem breakpointAt_of_zero {s : State} (h : s.breakpoints = 0#4096) (a : Addr) : s.breakpointAt a = false := by
  rw [State.breakpointAt, h, BitVec.getLsbD_zero]

/-- Settles O9, field by field. -/
theorem powerOnState : Obligations.PowerOnState := by
  unfold Obligations.PowerOnState
  exact ⟨State.readReg_resetRegisters State.reset, fun _ => rfl, rfl, rfl, rfl, rfl, rfl, rfl, rfl, rfl, rfl,
    breakpointAt_of_zero rfl, rfl⟩

/-- Settles O51, field by field. -/
theorem resetRegistersZeroesAndKeeps : Obligations.ResetRegistersZeroesAndKeeps := by
  unfold Obligations.ResetRegistersZeroesAndKeeps
  exact fun s => ⟨s.readReg_resetRegisters, rfl, rfl, rfl, rfl, rfl, rfl, rfl, fun _ _ => rfl, rfl, rfl, rfl, rfl⟩

theorem load_of_too_big {image : List Byte} (skip : Bool) (s : State) (h : Config.imageMax < image.length) :
    s.load image skip = .fault (.fileSizeTooBig image.length) := by
  rw [State.load, if_pos h]

/-- The marker is tested once the size has passed (R276; D14). -/
theorem load_of_no_magic {image : List Byte} (s : State) (hsize : image.length ≤ Config.imageMax)
    (h : image.take Config.magic.length ≠ Config.magic) :
    s.load image false = .fault (.unsupportedExecutable image.length) := by
  rw [State.load, if_neg hsize.not_gt, if_neg Bool.false_ne_true, if_neg h]

/-- Without validation nothing is inspected and nothing stripped (D15). -/
theorem load_skip {image : List Byte} (s : State) (hsize : image.length ≤ Config.imageMax) :
    s.load image true = .next (s.withPayload image) := by
  rw [State.load, if_neg hsize.not_gt, if_pos rfl]

/-- Settles O50: the two rejections, and the payload of a successful load with and without validation. -/
theorem loadChecksThenSetsTheLaunchState : Obligations.LoadChecksThenSetsTheLaunchState := by
  unfold Obligations.LoadChecksThenSetsTheLaunchState
  intro image skip s
  refine ⟨load_of_too_big skip s, load_of_no_magic s, fun payload hsize hpayload => ?_⟩
  have hload : s.load image skip = .next (s.withPayload payload) := by
    obtain ⟨rfl, rfl⟩ | ⟨rfl, rfl⟩ := hpayload
    · exact load_skip s hsize
    · exact load_magic_append s hsize
  exact ⟨_, hload, fun a => Memory.read_ofBytes payload a.toNat, rfl, s.readReg_resetRegisters, rfl, rfl, rfl, rfl, rfl,
    rfl, rfl, breakpointAt_of_zero rfl, rfl, rfl⟩

end Sys2Proof.Machine
end

section
/-! PROOFS. The host's commands (spec/49_host_interface.md): breakpoints, budget, input and `SetPC`; and what the loop of
`run` and `step` reports. -/

namespace Sys2Proof.Machine

/-! ## The commands on single fields -/

/-- Settles O54: each command by the breakpoints read after it; the outcome of a cycle by the one its state names. -/
theorem breakpointCommandsActOnTheirAddress : Obligations.BreakpointCommandsActOnTheirAddress := by
  unfold Obligations.BreakpointCommandsActOnTheirAddress
  intro a b s
  obtain ⟨-, hfires, -, -⟩ := cycleOutcome_matches s []
  exact ⟨s.breakpointAt_setBp a b, s.breakpointAt_clearBp a b, s.breakpointAt_toggleBp a b, breakpointAt_of_zero rfl b,
    fun h => (hfires h).2, rfl, rfl, rfl, rfl⟩

theorem setPcCommand_of_allowed {s : State} {a : Addr} {options : RangeOptions}
    (h : a.toNat < s.memoryUsed ∨ options.allowOutsideLoadedMemory = true) :
    s.setPcCommand a options = .next (s.setPc a) := by
  rw [State.setPcCommand, if_pos h]

theorem setPcCommand_of_outside {s : State} {a : Addr} (h : s.memoryUsed ≤ a.toNat) :
    s.setPcCommand a {} = .refused (.setPcOutsideImage a) := by
  rw [State.setPcCommand, if_neg]
  rintro (hin | hallowed)
  · exact h.not_gt hin
  · cases hallowed

/-- Settles O55, command by command; after `setInput` a LES reads the first byte of the new buffer. -/
theorem budgetInputAndPcCommands : Obligations.BudgetInputAndPcCommands := by
  unfold Obligations.BudgetInputAndPcCommands
  intro s n bytes a
  refine ⟨rfl, rfl, fun hstop => step_of_not_running hstop, rfl, fun b hb => ?les,
    fun hin => setPcCommand_of_allowed (.inl hin), setPcCommand_of_outside, setPcCommand_of_allowed (.inr rfl)⟩
  have hread : (s.setInput bytes).stdin[(s.setInput bytes).inputPtr]? = some b := List.head?_eq_getElem?.symm.trans hb
  exact ⟨_, exec_les_of_some 0#4 hread, (State.readReg_finishWith ..).trans (if_pos rfl)⟩

/-! ## Reports -/

theorem running_of_continuing {t : State} (h : cycleOutcome t = .continuing) : t.status = .running := by
  obtain ⟨hcontinuing, -⟩ := cycleOutcome_matches t []
  exact hcontinuing h

/-- A cycle that stops nothing was not refused. -/
theorem canCycle_of_continuing {s t : State} (hs : s.status = .running) (h : step s = .next t)
    (ho : cycleOutcome t = .continuing) : s.canCycle := by
  refine (canCycle_or_spent hs).resolve_right fun hb => ?_
  rw [step_of_spent hs hb] at h
  cases h
  cases running_of_continuing ho

/-- The report of no cycle at all. -/
theorem reportsCycles_zero {s : State} (hs : s.status = .running) : ReportsCycles s 0 ⟨s, .continuing, []⟩ := by
  refine ⟨rfl, fun k hk hk' => absurd hk hk'.not_gt, ⟨fun _ => hs, nofun, nofun, nofun⟩,
    fun k _ hk => absurd hk (Nat.not_lt_zero k), ?_, fun _ => rfl⟩
  rintro ⟨_, _, h⟩
  cases h

/-- The report of one cycle: it notifies unless the budget refused it. -/
theorem reportsCycles_one {s t : State} (hs : s.status = .running) (h : step s = .next t) :
    ReportsCycles s 1 ⟨t, cycleOutcome t, (stepCompleted s t).toList⟩ := by
  obtain ⟨-, -, -, hfaulted⟩ := cycleOutcome_matches t []
  have hrun : runSteps 1 s = .next t := runSteps_succ 0 h
  have hbetween : ∀ k, 0 < k → k < 1 → ∃ u, runSteps k s = .next u ∧ cycleOutcome u = .continuing :=
    fun k hk hk' => absurd hk hk'.not_ge
  obtain hc | hb := canCycle_or_spent hs
  · rw [stepCompleted_of_canCycle t hc]
    refine ⟨hrun, hbetween, cycleOutcome_matches t _, fun k u hk hu => ?_,
      fun ⟨budget, a, ho⟩ => absurd (hfaulted _ _ ho) (step_status_ne_exhausted hc h), fun _ => rfl⟩
    obtain rfl : k = 0 := Nat.lt_one_iff.mp hk
    cases hrun.symm.trans hu
    rfl
  · rw [stepCompleted_of_spent t hb]
    have hrefused : cycleOutcome t = .faulted (.resourcesExhausted s.maxTicks) s.pc := by
      rw [step_of_spent hs hb] at h
      cases h
      exact cycleOutcome_of_outcome rfl
    exact ⟨hrun, hbetween, cycleOutcome_matches t _, fun k _ hk => absurd hk (Nat.not_lt_zero k), fun _ => rfl,
      fun hne => absurd ⟨_, _, hrefused⟩ hne⟩

/-- One more cycle in front of those reported, one that stops nothing. -/
theorem ReportsCycles.cons {s t : State} {made : Nat} {rep : RunReport} (hs : s.status = .running)
    (h : step s = .next t) (ho : cycleOutcome t = .continuing) (hrep : ReportsCycles t made rep) :
    ReportsCycles s (made + 1) (rep.notify (stepCompleted s t)) := by
  obtain ⟨hrun, hbetween, hmatches, hnotes, hrefused, hnotRefused⟩ := hrep
  rw [stepCompleted_of_canCycle t (canCycle_of_continuing hs h ho)]
  refine ⟨(runSteps_succ made h).trans hrun, fun k hk hk' => ?between, hmatches, fun k u hk hu => ?notes,
    fun hr => congrArg Nat.succ (hrefused hr), fun hr => congrArg Nat.succ (hnotRefused hr)⟩
  case between =>
    obtain _ | _ | k := k
    · cases hk
    · exact ⟨t, runSteps_succ 0 h, ho⟩
    · obtain ⟨u, hu, huo⟩ := hbetween (k + 1) (Nat.succ_pos k) (Nat.lt_of_succ_lt_succ hk')
      exact ⟨u, (runSteps_succ (k + 1) h).trans hu, huo⟩
  case notes =>
    cases k with
    | zero =>
      cases (runSteps_succ 0 h).symm.trans hu
      rfl
    | succ k => exact hnotes k u (Nat.lt_of_succ_lt_succ hk) ((runSteps_succ (k + 1) h).symm.trans hu)

/-! ## The loop of `run` and `step` -/

/-- What a loop of at most `n` cycles has made of them: it reports its cycles, the last one's outcome, and that nothing
stopped it only where it has made all of them. -/
structure LoopReport (n : Nat) (s : State) (made : Nat) (rep : RunReport) : Prop where
  reports : ReportsCycles s made rep
  made_le : made ≤ n
  outcome_of_none : made = 0 → rep.outcome = .continuing
  outcome_of_some : 0 < made → rep.outcome = cycleOutcome rep.state
  all_of_continuing : rep.outcome = .continuing → made = n

theorem LoopReport.cons {n made : Nat} {s t : State} {rep : RunReport} (hs : s.status = .running)
    (h : step s = .next t) (ho : cycleOutcome t = .continuing) (hrep : LoopReport n t made rep) :
    LoopReport (n + 1) s (made + 1) (rep.notify (stepCompleted s t)) where
  reports := hrep.reports.cons hs h ho
  made_le := Nat.succ_le_succ hrep.made_le
  outcome_of_none := nofun
  outcome_of_some _ := by
    obtain rfl | hmade := Nat.eq_zero_or_pos made
    · obtain ⟨hrun, -⟩ := hrep.reports
      cases hrun
      exact (hrep.outcome_of_none rfl).trans ho.symm
    · exact hrep.outcome_of_some hmade
  all_of_continuing hc := congrArg Nat.succ (hrep.all_of_continuing hc)

theorem runLoop_reports (n : Nat) {s : State} (hs : s.status = .running) :
    ∃ made rep, runLoop n s = .next rep ∧ LoopReport n s made rep := by
  induction n generalizing s with
  | zero => exact ⟨0, _, rfl, reportsCycles_zero hs, le_rfl, fun _ => rfl, nofun, fun _ => rfl⟩
  | succ n ih =>
    obtain ⟨t, ht⟩ := step_answers s
    by_cases ho : cycleOutcome t = .continuing
    · obtain ⟨made, rep, hrun, hrep⟩ := ih (running_of_continuing ho)
      exact ⟨made + 1, _, runLoop_of_continuing ht ho hrun, hrep.cons hs ht ho⟩
    · exact ⟨1, _, runLoop_of_stop ht ho, reportsCycles_one hs ht, Nat.le_add_left .., nofun, fun _ => rfl,
        fun hc => absurd hc ho⟩

/-- Within the cycles that the budget leaves, something stops the loop (R243, R308). -/
theorem runLoop_cyclesLeft_stops {left : Nat} {s : State} {rep : RunReport} (hs : s.status = .running)
    (hleft : s.cyclesLeft = left) (h : runLoop left s = .next rep) : rep.outcome ≠ .continuing := by
  induction left generalizing s rep with
  | zero => cases hleft
  | succ left ih =>
    obtain ⟨t, ht⟩ := step_answers s
    by_cases ho : cycleOutcome t = .continuing
    · obtain ⟨rest, hr⟩ := runLoop_answers left t
      have hcycles := cyclesLeft_of_step (canCycle_of_continuing hs ht ho) ht
      rw [runLoop_of_continuing ht ho hr] at h
      cases h
      exact ih (rep := rest) (running_of_continuing ho) (by omega) hr
    · rw [runLoop_of_stop ht ho] at h
      cases h
      exact ho

/-- Settles O52: `run` is the loop from the reset registers, with as many cycles as the budget leaves. -/
theorem runStopsAtTheFirstStop : Obligations.RunStopsAtTheFirstStop := by
  unfold Obligations.RunStopsAtTheFirstStop
  intro s
  have hs : s.resetRegisters.status = .running := s.resetRegisters_status
  obtain ⟨made, rep, hrun, hrep⟩ := runLoop_reports s.resetRegisters.cyclesLeft hs
  have hstops := runLoop_cyclesLeft_stops hs rfl hrun
  have hmade : 0 < made := Nat.pos_of_ne_zero fun hzero => hstops (hrep.outcome_of_none hzero)
  exact ⟨made, rep, hrun, hmade, hrep.reports, hrep.outcome_of_some hmade, hstops⟩

/-- Settles O53: a `step` of a running core is the loop, with its count of cycles or with as many as the budget leaves. -/
theorem stepCommandMakesItsCycles : Obligations.StepCommandMakesItsCycles := by
  unfold Obligations.StepCommandMakesItsCycles
  intro c s hs
  obtain ⟨hcount, hunbounded⟩ := stepCommand_of_running hs
  cases c with
  | count n =>
    obtain ⟨made, rep, hrun, hrep⟩ := runLoop_reports n hs
    refine ⟨made, rep, (hcount n).trans hrun, hrep.reports, hrep.outcome_of_none, hrep.outcome_of_some, ?_, nofun⟩
    rintro _ ⟨⟩
    exact ⟨hrep.made_le, hrep.all_of_continuing⟩
  | unbounded =>
    obtain ⟨made, rep, hrun, hrep⟩ := runLoop_reports s.cyclesLeft hs
    exact ⟨made, rep, hunbounded.trans hrun, hrep.reports, hrep.outcome_of_none, hrep.outcome_of_some, nofun,
      fun _ => runLoop_cyclesLeft_stops hs rfl hrun⟩

end Sys2Proof.Machine
end

section
/-! PROOFS. The disassembler (spec/48_disassembler.md): what one word consumes, and the cover of a range by its lines. -/

namespace Sys2Proof.Machine

/-! ## One word -/

theorem render_of_legal {opcode param : Byte} {i : Instr} (h : classify (wordOfBytes opcode param) = .ok i) :
    render opcode param = ⟨true, 2, sourceText i.toSource⟩ := by
  simp only [render, h]

theorem render_of_illegal {opcode param : Byte} {reason : IllegalReason}
    (h : classify (wordOfBytes opcode param) = .error reason) :
    render opcode param = ⟨false, 1, dataText opcode ++ " ; ".toList ++ reasonText reason⟩ := by
  simp only [render, h]

/-- Settles O57, legal and illegal words apart. -/
theorem renderConsumesByLegality : Obligations.RenderConsumesByLegality := by
  unfold Obligations.RenderConsumesByLegality
  intro opcode param
  cases h : classify (wordOfBytes opcode param) with
  | ok i => rw [render_of_legal h]; exact ⟨⟨fun _ => ⟨i, rfl⟩, fun _ => rfl⟩, rfl⟩
  | error reason => rw [render_of_illegal h]; exact ⟨⟨nofun, nofun⟩, rfl⟩

theorem render_consumed (opcode param : Byte) :
    (render opcode param).consumed = 1 ∨ (render opcode param).consumed = 2 := by
  cases h : classify (wordOfBytes opcode param) with
  | ok i => rw [render_of_legal h]; exact .inr rfl
  | error reason => rw [render_of_illegal h]; exact .inl rfl

/-! ## The walker -/

/-- The bytes from address `p` on, each with its address, up to `finish`. -/
def addressedBytes (m : Memory) (finish p : Nat) : List (Nat × Byte) :=
  (List.range' p (finish - p)).map fun a => (a, m.read a)

/-- The bytes of a line, each with its address. -/
def DisasmLine.addressedBytes (line : DisasmLine) : List (Nat × Byte) :=
  (List.range' line.address line.bytes.length).zip line.bytes

theorem addressedBytes_of_le {m : Memory} {finish p : Nat} (h : finish ≤ p) : addressedBytes m finish p = [] := by
  rw [addressedBytes, Nat.sub_eq_zero_of_le h]
  rfl

theorem addressedBytes_of_lt {m : Memory} {finish p : Nat} (h : p < finish) :
    addressedBytes m finish p = (p, m.read p) :: addressedBytes m finish (p + 1) := by
  have hlen : finish - p = finish - (p + 1) + 1 := by omega
  rw [addressedBytes, hlen, List.range'_succ]
  rfl

/-- Below the end, one byte is consumed, or two bytes that both lie below the end (R224, R225). -/
theorem renderAt_consumed (m : Memory) (finish p : Nat) :
    (renderAt m finish p).consumed = 1 ∨ (renderAt m finish p).consumed = 2 ∧ p + 1 < finish := by
  rw [renderAt]
  split_ifs with hp
  · exact (render_consumed ..).imp_right fun h => ⟨h, hp⟩
  · exact .inl rfl

/-- With lines enough, the walker covers the range. -/
theorem walk_covers (m : Memory) (finish : Nat) {lines p : Nat} (h : finish - p ≤ lines) :
    (walk m finish lines p).flatMap DisasmLine.addressedBytes = addressedBytes m finish p := by
  induction lines generalizing p with
  | zero => rw [addressedBytes_of_le (by omega)]; rfl
  | succ lines ih =>
    rw [walk]
    split_ifs with hp
    · rw [List.flatMap_cons, addressedBytes_of_lt hp]
      obtain hone | ⟨htwo, hp'⟩ := renderAt_consumed m finish p
      · rw [hone, ih (by omega)]
        rfl
      · rw [htwo, ih (by omega), addressedBytes_of_lt hp']
        rfl
    · rw [addressedBytes_of_le (Nat.le_of_not_lt hp)]
      rfl

/-- Settles O59: the walker of a clipped range has a line for each of its bytes, and needs no more. -/
theorem disassemblyCoversTheRange : Obligations.DisassemblyCoversTheRange := by
  unfold Obligations.DisassemblyCoversTheRange
  refine ⟨rfl, fun start length options s hlength => ?_⟩
  rw [disassemble, if_neg hlength.ne']
  exact walk_covers s.memory _ le_rfl

end Sys2Proof.Machine
end

section
/-! PROOFS. The rendered text of an instruction and how a source line reads it back (spec/48_disassembler.md R222, R223;
30_encoding.md R86 to R90). -/

namespace Sys2Proof.Machine

/-! ## Words of the text -/

/-- A mnemonic or an operand as it is rendered: one or more identifier characters. -/
structure IsWord (t : Text) : Prop where
  ne_nil : t ≠ []
  all_ident : t.all isIdentChar = true

theorem IsWord.isIdentChar_of_mem {t : Text} (h : IsWord t) {c : Char} (hc : c ∈ t) : isIdentChar c = true :=
  List.all_eq_true.mp h.all_ident c hc

/-- No character with a meaning of its own is an identifier character. -/
theorem isIdentChar_ne {c d : Char} (hc : isIdentChar c = true) (hd : isIdentChar d = false) : c ≠ d := by
  rintro rfl
  exact Bool.false_ne_true (hd.symm.trans hc)

theorem isSpace_of_isIdentChar {c : Char} (hc : isIdentChar c = true) : isSpace c = false := by
  have hblank : c ≠ ' ' := isIdentChar_ne hc (by decide)
  have htab : c ≠ '\t' := isIdentChar_ne hc (by decide)
  have hreturn : c ≠ '\r' := isIdentChar_ne hc (by decide)
  simp [isSpace, hblank, htab, hreturn]

theorem isWord_mnemonicText (m : Mnemonic) : IsWord (mnemonicText m) := by
  cases m <;> exact ⟨by decide, by decide⟩

theorem parseMnemonic_mnemonicText (m : Mnemonic) : parseMnemonic (mnemonicText m) = some m := by
  cases m <;> decide

/-! ## Operands -/

/-- An operand whose text is a word that reads back as the operand. -/
structure ReadsBack (digits : Nat) (o : Operand) : Prop where
  isWord : IsWord (operandText digits o)
  parse : parseOperand (operandText digits o) = some o

theorem readsBack_reg (digits : Nat) {n : Nat} (h : n < 16) : ReadsBack digits (.reg n) := by
  have hword : ∀ n < 16, ('r' :: decText n).all isIdentChar = true := by decide
  have hparse : ∀ n < 16, parseOperand ('r' :: decText n) = some (.reg n) := by decide
  exact ⟨⟨nofun, hword n h⟩, hparse n h⟩

theorem isIdentChar_hexDigit {n : Nat} (h : n < 16) : isIdentChar (hexDigit n) = true := by
  revert n; decide

theorem digitValue_hexDigit {n : Nat} (h : n < 16) : digitValue 16 (hexDigit n) = some n := by
  revert n; decide

theorem all_isIdentChar_hexText (k n : Nat) : (hexText k n).all isIdentChar = true := by
  induction k generalizing n with
  | zero => rfl
  | succ k ih => simp [hexText, ih, isIdentChar_hexDigit (Nat.mod_lt n (by decide))]

theorem digitsFrom_append {base acc n : Nat} {t : Text} (h : digitsFrom base acc t = some n) (u : Text) :
    digitsFrom base acc (t ++ u) = digitsFrom base n u := by
  induction t generalizing acc with
  | nil => cases h; rfl
  | cons c cs ih =>
    cases hd : digitValue base c with
    | none => simp [digitsFrom, hd] at h
    | some d =>
      simp only [digitsFrom, hd, List.cons_append] at h ⊢
      exact ih h

/-- The digits of a number that has no more of them read back as the number. -/
theorem digitsFrom_hexText {k n : Nat} (h : n < 16 ^ k) : digitsFrom 16 0 (hexText k n) = some n := by
  induction k generalizing n with
  | zero =>
    obtain rfl : n = 0 := Nat.lt_one_iff.mp h
    rfl
  | succ k ih =>
    have hhigh : n / 16 < 16 ^ k := Nat.div_lt_of_lt_mul (by rwa [Nat.mul_comm, ← Nat.pow_succ])
    rw [hexText, digitsFrom_append (ih hhigh), digitsFrom, digitValue_hexDigit (Nat.mod_lt n (by decide))]
    exact congrArg some (Nat.div_add_mod' n 16)

theorem parseNumber_hexNumber {k n : Nat} (h : n < 16 ^ (k + 1)) : parseNumber (hexNumber (k + 1) n) = some n := by
  have hdigits := digitsFrom_hexText h
  obtain ⟨c, cs, hcs⟩ : ∃ c cs, hexText (k + 1) n = c :: cs :=
    List.exists_cons_of_length_eq_add_one (hexText_length (k + 1) n)
  rw [hcs] at hdigits
  rw [hexNumber, hcs]
  exact hdigits

theorem readsBack_num {k n : Nat} (h : n < 16 ^ (k + 1)) : ReadsBack (k + 1) (.num n) where
  isWord := by
    have hzerox : "0x".toList.all isIdentChar = true := by decide
    exact ⟨nofun, by rw [operandText, hexNumber, List.all_append, hzerox, all_isIdentChar_hexText]; rfl⟩
  parse := by
    have hreg : parseRegister (hexNumber (k + 1) n) = none := rfl
    rw [operandText, parseOperand, hreg, parseNumber_hexNumber h]

/-- The operands of every instruction read back (R222, R223). -/
theorem readsBack_toSource (i : Instr) :
    ∀ o ∈ i.toSource.operands, ReadsBack (numberDigits i.toSource.mnemonic) o := by
  have hreg (digits : Nat) (r : RegIdx) : ReadsBack digits (.reg r.toNat) := readsBack_reg digits r.isLt
  have himm (v : Byte) : ReadsBack 2 (.num v.toNat) := readsBack_num (k := 1) v.isLt
  have haddr (a : Addr) : ReadsBack 3 (.num a.toNat) := readsBack_num (k := 2) a.isLt
  cases i <;> simp [Instr.toSource, numberDigits, hreg, himm, haddr]

/-! ## Trimming -/

/-- A text that neither begins nor ends with a space. -/
def Tight (t : Text) : Prop :=
  (∃ c cs, t = c :: cs ∧ isSpace c = false) ∧ ∃ cs c, t = cs ++ [c] ∧ isSpace c = false

theorem IsWord.tight {t : Text} (h : IsWord t) : Tight t := by
  have hne := h.ne_nil
  have hspace : ∀ c ∈ t, isSpace c = false := fun c hc => isSpace_of_isIdentChar (h.isIdentChar_of_mem hc)
  exact ⟨⟨t.head hne, t.tail, (List.cons_head_tail hne).symm, hspace _ (List.head_mem hne)⟩,
    t.dropLast, t.getLast hne, (List.dropLast_append_getLast hne).symm, hspace _ (List.getLast_mem hne)⟩

/-- Only the outer ends of a text matter. -/
theorem Tight.append {t u : Text} (ht : Tight t) (hu : Tight u) (between : Text) : Tight (t ++ between ++ u) := by
  obtain ⟨⟨c, cs, rfl, hc⟩, -⟩ := ht
  obtain ⟨-, ds, d, rfl, hd⟩ := hu
  exact ⟨⟨c, _, rfl, hc⟩, _, d, (List.append_assoc ..).symm, hd⟩

theorem Tight.trim_eq {t : Text} (h : Tight t) : trim t = t := by
  obtain ⟨⟨c, cs, hfirst, hc⟩, ds, d, hlast, hd⟩ := h
  have hleft : t.dropWhile isSpace = t := by rw [hfirst, List.dropWhile_cons_of_neg (by simp [hc])]
  have hright : t.reverse.dropWhile isSpace = t.reverse := by
    rw [hlast, List.reverse_append, List.reverse_singleton, List.singleton_append,
      List.dropWhile_cons_of_neg (by simp [hd])]
  rw [trim, hleft, hright, List.reverse_reverse]

theorem trim_blank_cons (t : Text) : trim (' ' :: t) = trim t := rfl

/-! ## Splitting -/

/-- Neither the separator nor a quote stands in the text. -/
def Unsplit (sep : Char) (t : Text) : Prop := ∀ c ∈ t, c ≠ sep ∧ c ≠ quoteChar

theorem IsWord.unsplit {t : Text} (h : IsWord t) {sep : Char} (hsep : isIdentChar sep = false) : Unsplit sep t :=
  fun c hc => ⟨isIdentChar_ne (h.isIdentChar_of_mem hc) hsep, isIdentChar_ne (h.isIdentChar_of_mem hc) (by decide)⟩

theorem Unsplit.append {sep : Char} {t u : Text} (ht : Unsplit sep t) (hu : Unsplit sep u) : Unsplit sep (t ++ u) :=
  fun c hc => (List.mem_append.mp hc).elim (ht c) (hu c)

theorem splitOutsideQuotes_cons {sep c : Char} (hsep : c ≠ sep) (hquote : c ≠ quoteChar) {cs t : Text}
    {ts : List Text} (h : splitOutsideQuotes sep false cs = t :: ts) :
    splitOutsideQuotes sep false (c :: cs) = (c :: t) :: ts := by
  simp [splitOutsideQuotes, hsep, hquote, h]

/-- A text before a separator is the first piece. -/
theorem splitOutsideQuotes_append_sep {sep : Char} {t : Text} (h : Unsplit sep t) (u : Text) :
    splitOutsideQuotes sep false (t ++ sep :: u) = t :: splitOutsideQuotes sep false u := by
  induction t with
  | nil => simp [splitOutsideQuotes]
  | cons c cs ih =>
    obtain ⟨⟨hsep, hquote⟩, hcs⟩ := List.forall_mem_cons.mp h
    exact splitOutsideQuotes_cons hsep hquote (ih hcs)

/-- A text without separators is the only piece. -/
theorem splitOutsideQuotes_unsplit {sep : Char} {t : Text} (h : Unsplit sep t) :
    splitOutsideQuotes sep false t = [t] := by
  induction t with
  | nil => rfl
  | cons c cs ih =>
    obtain ⟨⟨hsep, hquote⟩, hcs⟩ := List.forall_mem_cons.mp h
    exact splitOutsideQuotes_cons hsep hquote (ih hcs)

theorem stripComment_of_unsplit {t : Text} (h : Unsplit ';' t) (htight : Tight t) : stripComment t = t := by
  rw [stripComment, splitOutsideQuotes_unsplit h]
  exact htight.trim_eq

/-! ## The operand list -/

theorem operandsText_cons_cons (digits : Nat) (o o' : Operand) (os : List Operand) :
    operandsText digits (o :: o' :: os) =
      operandText digits o ++ ", ".toList ++ operandsText digits (o' :: os) := rfl

section
variable {digits : Nat} {o : Operand} {os : List Operand}

theorem tight_operandsText (h : ∀ x ∈ o :: os, ReadsBack digits x) : Tight (operandsText digits (o :: os)) := by
  induction os generalizing o with
  | nil => exact (h o (by simp)).isWord.tight
  | cons o' os ih =>
    obtain ⟨ho, hos⟩ := List.forall_mem_cons.mp h
    exact ho.isWord.tight.append (ih hos) _

theorem unsplit_semicolon_operandsText (h : ∀ x ∈ o :: os, ReadsBack digits x) :
    Unsplit ';' (operandsText digits (o :: os)) := by
  induction os generalizing o with
  | nil => exact (h o (by simp)).isWord.unsplit (by decide)
  | cons o' os ih =>
    obtain ⟨ho, hos⟩ := List.forall_mem_cons.mp h
    have hbetween : Unsplit ';' ", ".toList := by simp [Unsplit, quoteChar]
    exact ((ho.isWord.unsplit (by decide)).append hbetween).append (ih hos)

/-- The pieces between the commas are the texts of the operands, each after a space but the first. -/
theorem split_operandsText (h : ∀ x ∈ o :: os, ReadsBack digits x) :
    splitOutsideQuotes ',' false (operandsText digits (o :: os)) =
      operandText digits o :: os.map fun x => ' ' :: operandText digits x := by
  induction os generalizing o with
  | nil => exact splitOutsideQuotes_unsplit ((h o (by simp)).isWord.unsplit (by decide))
  | cons o' os ih =>
    obtain ⟨ho, hos⟩ := List.forall_mem_cons.mp h
    have hpieces := splitOutsideQuotes_cons (c := ' ') (by decide) (by decide) (ih hos)
    rw [operandsText_cons_cons, List.append_assoc]
    exact (splitOutsideQuotes_append_sep (ho.isWord.unsplit (by decide)) _).trans (congrArg _ hpieces)

theorem pieces_operandsText (h : ∀ x ∈ o :: os, ReadsBack digits x) :
    pieces (' ' :: operandsText digits (o :: os)) = (o :: os).map (operandText digits) := by
  have htight := tight_operandsText h
  obtain ⟨⟨c, cs, hcs, -⟩, -⟩ := id htight
  rw [pieces, trim_blank_cons, htight.trim_eq]
  split
  · next hnil => cases hcs.symm.trans hnil
  · rw [split_operandsText h, List.map_cons, List.map_map, List.map_cons, (h o (by simp)).isWord.tight.trim_eq]
    refine congrArg _ (List.map_congr_left fun x hx => ?_)
    exact (trim_blank_cons _).trans (h x (List.mem_cons_of_mem _ hx)).isWord.tight.trim_eq

end

theorem parseOperands_map {digits : Nat} {os : List Operand} (h : ∀ o ∈ os, ReadsBack digits o) :
    parseOperands (os.map (operandText digits)) = some os := by
  induction os with
  | nil => rfl
  | cons o os ih =>
    obtain ⟨ho, hos⟩ := List.forall_mem_cons.mp h
    rw [List.map_cons, parseOperands, ho.parse, ih hos]

/-! ## The line -/

/-- What a rendered instruction is made of: its mnemonic, and then nothing or a space and its operands. -/
structure RendersAs (i : SourceInstr) (rest : Text) : Prop where
  text_eq : sourceText i = mnemonicText i.mnemonic ++ rest
  rest_cases : rest = [] ∨ ∃ cs, rest = ' ' :: cs
  operands_parse : parseOperands (pieces rest) = some i.operands
  tight : Tight (sourceText i)
  unsplit : Unsplit ';' (sourceText i)

theorem exists_rendersAs {i : SourceInstr} (h : ∀ o ∈ i.operands, ReadsBack (numberDigits i.mnemonic) o) :
    ∃ rest, RendersAs i rest := by
  obtain ⟨m, os⟩ := i
  have hword := isWord_mnemonicText m
  cases os with
  | nil =>
    exact ⟨[], (List.append_nil _).symm, .inl rfl, rfl, hword.tight, hword.unsplit (by decide)⟩
  | cons o os =>
    have hblank : Unsplit ';' " ".toList := by simp [Unsplit, quoteChar]
    refine ⟨' ' :: operandsText (numberDigits m) (o :: os), List.append_assoc .., .inr ⟨_, rfl⟩, ?_,
      hword.tight.append (tight_operandsText h) _,
      ((hword.unsplit (by decide)).append hblank).append (unsplit_semicolon_operandsText h)⟩
    rw [pieces_operandsText h, parseOperands_map h]

/-- The head of a text, up to the first character that fails a test. -/
theorem takeWhile_append_of_blank {p : Char → Bool} {t rest : Text} (ht : ∀ c ∈ t, p c = true) (hp : p ' ' = false)
    (hrest : rest = [] ∨ ∃ cs, rest = ' ' :: cs) :
    (t ++ rest).takeWhile p = t ∧ (t ++ rest).dropWhile p = rest := by
  rw [List.takeWhile_append_of_pos ht, List.dropWhile_append_of_pos ht]
  obtain rfl | ⟨cs, rfl⟩ := hrest
  · simp
  · simp [hp]

section
variable {i : SourceInstr} {rest : Text} (h : RendersAs i rest)
include h

theorem RendersAs.parseInstr_eq : parseInstr (sourceText i) = .ok i := by
  have hnonSpace : ∀ c ∈ mnemonicText i.mnemonic, (!isSpace c) = true := fun c hc => by
    rw [isSpace_of_isIdentChar ((isWord_mnemonicText _).isIdentChar_of_mem hc)]; rfl
  obtain ⟨htake, hdrop⟩ := takeWhile_append_of_blank (p := fun c => !isSpace c) hnonSpace rfl h.rest_cases
  rw [parseInstr, h.text_eq, htake, hdrop, parseMnemonic_mnemonicText, h.operands_parse]

/-- No colon follows the mnemonic. -/
theorem RendersAs.labelOfLine_eq : labelOfLine (sourceText i) = none := by
  have hident : ∀ c ∈ mnemonicText i.mnemonic, isIdentChar c = true :=
    fun _ => (isWord_mnemonicText _).isIdentChar_of_mem
  obtain ⟨-, hdrop⟩ := takeWhile_append_of_blank hident rfl h.rest_cases
  rw [labelOfLine, h.text_eq, hdrop]
  obtain hnil | ⟨cs, hcons⟩ := h.rest_cases
  · rw [hnil]
  · rw [hcons]; rfl

/-- The line of a rendered instruction reads back as the instruction (R223). -/
theorem RendersAs.parseLine_eq : parseLine (sourceText i) = .ok (.instr i) := by
  have hword := isWord_mnemonicText i.mnemonic
  obtain ⟨c, cs, hcs⟩ := List.exists_cons_of_ne_nil hword.ne_nil
  have hc : isIdentChar c = true := hword.isIdentChar_of_mem (hcs ▸ List.mem_cons_self)
  have hhead : sourceText i = c :: (cs ++ rest) := by rw [h.text_eq, hcs]; rfl
  have hdata : dataWord.isPrefixOf (sourceText i) = false := by
    have hdot : ('.' == c) = false := beq_false_of_ne (isIdentChar_ne hc (by decide)).symm
    rw [hhead]
    exact congrArg (· && _) hdot
  rw [parseLine, h.tight.trim_eq]
  split
  · next hnil => cases hhead.symm.trans hnil
  · next hcomment =>
    cases hhead.symm.trans hcomment
    exact absurd hc (by decide)
  · rw [h.labelOfLine_eq, hdata, stripComment_of_unsplit h.unsplit h.tight, h.parseInstr_eq]
    rfl

end

/-- A written instruction without labels needs no table. -/
theorem emitInstr_toSource (labels : Labels) (i : Instr) : emitInstr labels i.toSource = .ok (encodeBytes i) := by
  have hresolve : resolve labels i.toSource = some i.toSource := by cases i <;> rfl
  rw [emitInstr, hresolve]
  simp only [toInstr?_toSource]

/-- Settles O58: each piece of the rendered line reads back, and the instruction is its own written form's (R84). -/
theorem renderedTextReassembles : Obligations.RenderedTextReassembles := by
  unfold Obligations.RenderedTextReassembles
  intro opcode param i h
  obtain ⟨rest, hrest⟩ := exists_rendersAs (readsBack_toSource i)
  rw [render_of_legal h]
  exact ⟨hrest.parseLine_eq, emitInstr_toSource [] i⟩

end Sys2Proof.Machine
end
